-- ==== Sys2Proof/Word.lean ====
section
/-! DEFINITION. The widths the machine computes with (spec/00_scope.md R5, R7). All values are unsigned. -/

namespace Sys2Proof

/-- An 8-bit register, memory cell or immediate `nn`. -/
abbrev Byte := BitVec 8

/-- A 16-bit instruction word, index register, program counter or return address. -/
abbrev Word := BitVec 16

/-- A 4-bit field of an instruction word: a register number `x` or `y`, or a row count `n`. -/
abbrev Nibble := BitVec 4

/-- The 12-bit address field `nnn`. -/
abbrev Addr12 := BitVec 12

end Sys2Proof
end

