-- ==== Sys2Proof/Config.lean ====
section
/-! DEFINITION. What is fixed for this hardware (spec/00_scope.md R5), and the one free value, the random byte (R6, R143). -/

namespace Sys2Proof

/-- `MEM_SIZE` (R5). -/
def Config.memSize : Nat := 4096

/-- `FONT_BYTES` (R5): cells 0 to 79 are the font. -/
def Config.fontBytes : Nat := 80

/-- `PROG_BASE` (R5). -/
def Config.progBase : Nat := 512

/-- `PROG_MAX` (R5). -/
def Config.progMax : Nat := 3584

/-- `RESET_PC` (R5). -/
def Config.resetPc : Word := 512#16

/-- FREE VALUE (log entry 3). The byte the external random source supplies to the `n`-th executed RND when the
step is not given a byte by name: "a draw, a free input under no law" (spec/45_timers_random.md R143). -/
opaque Config.rnd : Nat → Byte

end Sys2Proof
end

