-- ==== Sys2Proof/Machine/State.lean ====
section
/-! DEFINITION. The state of the core (spec/10_state.md), its reset, and the reasons a step can stop. -/

namespace Sys2Proof.Machine

/-- `MEM` (R22): the cells that differ from what an unlisted address reads as (Machine/Font.lean `unlistedByte`), by
strictly rising address (log entry 1). -/
abbrev Memory := List Host.Cell

/-- The values of the `FAULT` register (R26, spec/60_exceptions.md R161): no fault or one of the five causes. The
values 6 and 7 never occur (R26), so they are no constructor. -/
inductive FaultCode where
  /-- 0: no fault has occurred. -/
  | none
  /-- 1: a fetch with `PC` odd or above 4094. -/
  | badFetch
  /-- 2: CALL with a full stack. -/
  | stackOverflow
  /-- 3: RET with an empty stack. -/
  | stackUnderflow
  /-- 4: a data access above address 4095. -/
  | memRange
  /-- 5: a store into the font. -/
  | writeProtect
  deriving DecidableEq, Repr

/-- Everything the spec gives the machine (R30), and the two fields that carry the `rnd` input of `step`. -/
structure State where
  /-- `V[0]` to `V[15]` (R10); `V[15]` is also the flag `VF` (R11). -/
  v : Vector Byte 16
  /-- `I`, the index register (R13). -/
  i : Word
  /-- `PC` (R14). -/
  pc : Word
  /-- `SP` (R16), the next free stack slot; legal values 0 to 16. -/
  sp : Byte
  /-- `STACK[0]` to `STACK[15]` (R17). -/
  stack : Vector Word 16
  /-- `DT`, the delay timer (R18). -/
  dt : Byte
  /-- `ST`, the sound timer (R19). -/
  st : Byte
  /-- `MEM` (R22, R23). -/
  mem : Memory
  /-- `DISP` (R20): 2048 one-bit pixels; pixel (row `r`, column `c`) is bit `64*r + c`. -/
  disp : BitVec 2048
  /-- `KEYS` (R21): bit `k` is 1 when key `k` is pressed. -/
  keys : BitVec 16
  /-- `WAIT` (R25): the core is suspended in a key wait. -/
  wait : Bool
  /-- `WAITX` (R25): the register that will receive the key. -/
  waitx : Nibble
  /-- `FAULT` (R26). -/
  fault : FaultCode
  /-- The model's own (log entry 3): the byte the host presents on the `rnd` input, where an event names one. -/
  rndIn : Option Byte
  /-- The model's own (log entry 3): how many random bytes were consumed, the argument of `Config.rnd`. -/
  draws : Nat
  deriving DecidableEq, Repr

/-- Why a step stops without a next state. The five faults of R161 are no such stop: taking one is a NEXT state. -/
inductive Fault where
  /-- Raised by CALL and RET when `SP` is above 16, which R16 says is no legal value: the stack entry does not exist.
  No run from reset reaches it. Safe: the model stops where the spec describes no machine. -/
  | stackPointerIllegal
  deriving DecidableEq, Repr

/-- Why the model gives an action no meaning. -/
inductive Refusal where
  /-- Raised by an arm of `exec` for an instruction without a meaning; no arm does. Safe. -/
  | notModelled (mnemonic : String)
  /-- Raised by the `reset` event when the program has more than 3584 bytes: it "has no defined effect"
  (spec/70_reset_and_hazards.md R191). No instruction raises it. Safe. -/
  | oversizedProgram
  deriving DecidableEq, Repr

/-- The machine right after `reset` with the empty program (R30, R190; R191: length 0 is legal) and the default `FONT`
(R6; log entry 2). No cell is listed, so memory reads as that font and the zeros of R23. The reset with any other `FONT`
or program is `State.afterReset` (Machine/Events.lean). -/
def State.reset : State where
  v := Vector.replicate 16 0#8
  i := 0#16
  pc := Config.resetPc
  sp := 0#8
  stack := Vector.replicate 16 0#16
  dt := 0#8
  st := 0#8
  mem := []
  disp := 0#2048
  keys := 0#16
  wait := false
  waitx := 0#4
  fault := .none
  rndIn := Option.none
  draws := 0

end Sys2Proof.Machine
end

