-- ==== Sys2Proof/Machine/Font.lean ====
section
/-! DEFINITION. The parameter `FONT` (spec/00_scope.md R6, spec/10_state.md R24), its default, and what a cell that memory
does not list reads as (R23). -/

namespace Sys2Proof.Machine

/-- A value of the parameter `FONT`: 80 bytes (R6). A reset takes it as an argument (Machine/Events.lean). -/
abbrev Font := Vector Byte 80

/-- The bytes of the default `FONT` (R24), marked general knowledge by the spec (PRESUMED, log entry 2): five bytes a
digit, digits 0 to F. -/
def fontTable : List Byte :=
  [0xF0, 0x90, 0x90, 0x90, 0xF0, 0x20, 0x60, 0x20, 0x20, 0x70,
   0xF0, 0x10, 0xF0, 0x80, 0xF0, 0xF0, 0x10, 0xF0, 0x10, 0xF0] ++
  [0x90, 0x90, 0xF0, 0x10, 0x10, 0xF0, 0x80, 0xF0, 0x10, 0xF0,
   0xF0, 0x80, 0xF0, 0x90, 0xF0, 0xF0, 0x10, 0x20, 0x40, 0x40] ++
  [0xF0, 0x90, 0xF0, 0x90, 0xF0, 0xF0, 0x90, 0xF0, 0x10, 0xF0,
   0xF0, 0x90, 0xF0, 0x90, 0x90, 0xE0, 0x90, 0xE0, 0x90, 0xE0] ++
  [0xF0, 0x80, 0x80, 0x80, 0xF0, 0xE0, 0x90, 0x90, 0x90, 0xE0,
   0xF0, 0x80, 0xF0, 0x80, 0xF0, 0xF0, 0x80, 0xF0, 0x80, 0x80]

/-- The default of the parameter `FONT` (R6, D19). -/
def defaultFont : Font := ⟨fontTable.toArray, rfl⟩

/-- What an unlisted address reads as: the default `FONT` below 80, 0 from 80 on (R23). A reset with another `FONT` lists
the font cells that differ (log entry 1). -/
def unlistedByte (a : Nat) : Byte := fontTable.getD a 0#8

end Sys2Proof.Machine
end

