-- ==== Sys2Proof/Machine/Ops.lean ====
section
/-! DEFINITION. The named operations over registers, memory, stack and latches (spec/00_scope.md R8), and taking a fault
(spec/60_exceptions.md R162). Every access of an instruction goes through these. -/

namespace Sys2Proof.Machine

/-! ## General registers (R10: none is hardwired, none is banked) -/

/-- `V[x]`. -/
def State.reg (s : State) (x : Nibble) : Byte := s.v[x.toNat]'x.isLt

/-- `V[x] <- b`. -/
def State.setReg (s : State) (x : Nibble) (b : Byte) : State := { s with v := s.v.set x.toNat b x.isLt }

/-- Register 15, the flag register `VF` (R11). -/
def flagReg : Nibble := 0xF#4

/-! ## The other registers -/

/-- `I <- w`. -/
def State.setI (s : State) (w : Word) : State := { s with i := w }

/-- `PC <- w`. No transfer checks its target (D23); the next fetch does (R81). -/
def State.setPc (s : State) (w : Word) : State := { s with pc := w }

/-- `PC <- PC + 2`: the advance at fetch (R83) and the further advance of a skip. -/
def State.advance (s : State) : State := s.setPc (s.pc + 2#16)

/-- The skip of R94 to R97, R150, R151: `if c then PC <- PC + 2`. -/
def State.skipIf (s : State) (c : Bool) : State := if c then s.advance else s

/-- `DT <- b` (R18). -/
def State.setDt (s : State) (b : Byte) : State := { s with dt := b }

/-- `ST <- b` (R19). -/
def State.setSt (s : State) (b : Byte) : State := { s with st := b }

/-- Replace `MEM`. -/
def State.setMem (s : State) (m : Memory) : State := { s with mem := m }

/-- Replace `DISP` (R20). -/
def State.setDisp (s : State) (d : BitVec 2048) : State := { s with disp := d }

/-- Replace `KEYS` (R181); only the `key_set` event does. -/
def State.setKeys (s : State) (k : BitVec 16) : State := { s with keys := k }

/-- `WAITX <- x; WAIT <- 1` (spec/46_input.md R152). -/
def State.suspend (s : State) (x : Nibble) : State := { s with wait := true, waitx := x }

/-- `WAIT <- 0` (R152, second half). -/
def State.resume (s : State) : State := { s with wait := false }

/-! ## The random input (R6, R143; log entry 3) -/

/-- The byte on the `rnd` input: the one an event presents, else the free value. -/
def State.rndByte (s : State) : Byte := s.rndIn.getD (Config.rnd s.draws)

/-- One random byte is consumed: "one value per executed RND" (R143). -/
def State.consumeRnd (s : State) : State := { s with rndIn := Option.none, draws := s.draws + 1 }

/-- Set the `rnd` input for the step event that follows (R180). -/
def State.setRndIn (s : State) (b : Option Byte) : State := { s with rndIn := b }

/-! ## Taking a fault (R161, R162)

There is no vector, no saved register and no mode: `FAULT` latches the cause and nothing else is written. `PC` keeps the
value it has, advanced for causes 2 to 5, not advanced for cause 1. There is no return from a fault (R164): the one
exit is the reset event (Machine/Events.lean). -/

/-- `raise c`: `FAULT <- code(c)`, no other state is written (R162). -/
def State.raise (s : State) (c : FaultCode) : State := { s with fault := c }

/-- The 3-bit value of `FAULT` (R26, R161). -/
def FaultCode.code : FaultCode → BitVec 3
  | .none => 0
  | .badFetch => 1
  | .stackOverflow => 2
  | .stackUnderflow => 3
  | .memRange => 4
  | .writeProtect => 5

/-! ## Memory (R22, R23, R40 to R50) -/

/-- `MEM[a]`. An address from 4096 on does not exist; every caller has raised `MemRange` or `BadFetch` before (R8). -/
def Memory.readByte : Memory → Nat → Byte
  | [], a => unlistedByte a
  | c :: m, a => if c.1 = a then c.2 else Memory.readByte m a

/-- Take every entry for address `a` out of the list. -/
def Memory.dropCell (m : Memory) (a : Nat) : Memory := m.filter fun c => c.1 != a

/-- Put an entry for `a` before the first entry with a higher address. -/
def Memory.putCell (a : Nat) (b : Byte) : Memory → Memory
  | [] => [(a, b)]
  | c :: m => if a < c.1 then (a, b) :: c :: m else c :: Memory.putCell a b m

/-- `MEM[a] <- b` (R8). An entry equal to what an unlisted address reads as is not listed, so equal memories are equal
lists. An address that does not exist takes no byte. -/
def Memory.writeByte (m : Memory) (a : Nat) (b : Byte) : Memory :=
  if a < Config.memSize then
    if b = unlistedByte a then m.dropCell a else Memory.putCell a b (m.dropCell a)
  else m

/-- Write consecutive bytes from address `a` up. -/
def Memory.writeBytes (m : Memory) (a : Nat) : List Byte → Memory
  | [] => m
  | b :: bs => Memory.writeBytes (m.writeByte a b) (a + 1) bs

/-- The canonical form: addresses strictly rising, all of them existing, no entry equal to what an unlisted address
reads as. -/
abbrev Memory.wf (m : Memory) : Prop :=
  m.Pairwise (fun c d => c.1 < d.1) ∧ ∀ c ∈ m, c.1 < Config.memSize ∧ c.2 ≠ unlistedByte c.1

/-! ## The call stack (R16, R17) -/

/-- `STACK[SP] <- PC; SP <- SP + 1` (R91), where slot `SP` exists. -/
def State.pushPc (s : State) (h : s.sp.toNat < 16) : State :=
  { s with stack := s.stack.set s.sp.toNat s.pc h, sp := s.sp + 1#8 }

/-- `SP <- SP - 1; PC <- STACK[SP]` (R92), where that slot exists. The entry stays in `STACK`. -/
def State.popPc (s : State) (h : (s.sp - 1#8).toNat < 16) : State :=
  { s with sp := s.sp - 1#8, pc := s.stack[(s.sp - 1#8).toNat]'h }

end Sys2Proof.Machine
end

