-- ==== Sys2Proof/Machine/Flags.lean ====
section
/-! DEFINITION. Results and flag values of the ALU: exact integers, narrowed once (spec/42_register_arithmetic.md R105 to
R111), and the two orders in which result and flag are written (spec/92_eei_decisions.md D12, D15). -/

namespace Sys2Proof.Machine

/-- A flag as `VF` holds it: 1 or 0 (spec/10_state.md R12). -/
def flagByte (c : Bool) : Byte := if c then 1#8 else 0#8

/-- The exact 9-bit sum (R105). -/
def exactSum (a b : Byte) : Nat := a.toNat + b.toNat

/-- The exact signed difference (R106, R108). -/
def exactDiff (a b : Byte) : Int := (a.toNat : Int) - (b.toNat : Int)

/-- The low 8 bits of the sum (R101, R105). -/
def sumLow (a b : Byte) : Byte := BitVec.ofNat 8 (exactSum a b)

/-- The low 8 bits of the two's-complement difference (R106, R108). -/
def diffLow (a b : Byte) : Byte := BitVec.ofInt 8 (exactDiff a b)

/-- `1 if s > 255 else 0` (R105). -/
def carryFlag (a b : Byte) : Byte := flagByte (decide (255 < exactSum a b))

/-- `1 if d >= 0 else 0`, 1 meaning no borrow (R106, R108). -/
def noBorrowFlag (a b : Byte) : Byte := flagByte (decide (0 ≤ exactDiff a b))

/-- The bit SHR shifts out: bit 0 (R107). -/
def bitOutRight (b : Byte) : Byte := flagByte (b.getLsbD 0)

/-- The bit SHL shifts out: bit 7 (R109). -/
def bitOutLeft (b : Byte) : Byte := flagByte (b.getLsbD 7)

/-- `V[x] div 2` (R107). -/
def shiftRight1 (b : Byte) : Byte := b >>> 1

/-- `(V[x] * 2) mod 256` (R109). -/
def shiftLeft1 (b : Byte) : Byte := b <<< 1

/-- The result is written, then the flag: with `x = 15` the flag stays (R105, R106, R108; D15). -/
def State.writeFlagLast (s : State) (x : Nibble) (result flag : Byte) : State := (s.setReg x result).setReg flagReg flag

/-- The flag is written, then the CURRENT `V[x]` is shifted: with `x = 15` the shifted flag stays (R107, R109; D12). -/
def State.shiftFlagFirst (s : State) (x : Nibble) (flag : Byte) (shift : Byte → Byte) : State :=
  (s.setReg flagReg flag).setReg x (shift ((s.setReg flagReg flag).reg x))

end Sys2Proof.Machine
end

