-- ==== Sys2Proof/Machine/Operands.lean ====
section
/-! DEFINITION. Operand forms: immediates (spec/30_encoding.md R63), the one addressing mode and its range checks
(spec/43_memory_index.md R124, spec/20_memory.md R47, R48), key and glyph selection. -/

namespace Sys2Proof.Machine

/-- `zext_16` of an address field (R63): never sign-extended, never scaled. -/
def zextAddr (nnn : Addr12) : Word := nnn.setWidth 16

/-- `zext_16` of a register value (R63). -/
def zextByte (b : Byte) : Word := b.setWidth 16

/-- The data address `I + k`, an unbounded integer: it wraps neither at 4096 nor at 65536 (R47, R124). -/
def State.dataAddr (s : State) (k : Nat) : Nat := s.i.toNat + k

/-- The last of `count` bytes from `I` lies above 4095 (R47). With no byte accessed nothing is out of range. -/
def State.outOfRange (s : State) (count : Nat) : Bool := decide (1 ≤ count ∧ Config.memSize ≤ s.dataAddr (count - 1))

/-- A store from `I` begins in the font (R48). -/
def State.inFont (s : State) : Bool := decide (s.dataAddr 0 < Config.fontBytes)

/-- The fault of a load of `count` bytes from `I`, if it has one (R47). -/
def State.loadFault (s : State) (count : Nat) : Option FaultCode :=
  if s.outOfRange count then some .memRange else Option.none

/-- The fault of a store of `count` bytes from `I`, if it has one: `MemRange` is tested before `WriteProtect` (R163). -/
def State.storeFault (s : State) (count : Nat) : Option FaultCode :=
  if s.outOfRange count then some .memRange
  else if s.inFont then some .writeProtect
  else Option.none

/-- A fault is taken, or, where no check failed, the instruction completes (R85: all checks before the first write). -/
def State.faultOr (s : State) (f : Option FaultCode) (t : State) : Host.Outcome State Fault Refusal :=
  match f with
  | some c => .next (s.raise c)
  | Option.none => .next t

/-- `MEM[I + k]`. -/
def State.dataByte (s : State) (k : Nat) : Byte := s.mem.readByte (s.dataAddr k)

/-- `V[0]` to `V[x]`, the registers a bulk store or load moves (R63, R125, R126). -/
def State.regsTo (s : State) (x : Nibble) : List Byte :=
  (List.range (x.toNat + 1)).map fun k => s.reg (BitVec.ofNat 4 k)

/-- `for i = 0 to x: V[i] <- MEM[I + i]` (R126); `I` is no general register, so the addresses stay. -/
def State.loadRegs (s : State) (x : Nibble) : State :=
  (List.range (x.toNat + 1)).foldl (fun t k => t.setReg (BitVec.ofNat 4 k) (s.dataByte k)) s

/-- The key a register value names: only the low nibble selects (spec/46_input.md R150). -/
def keyOf (b : Byte) : Nibble := (b &&& 0x0F#8).setWidth 4

/-- `KEYS[k]` (R21). -/
def State.keyDown (s : State) (k : Nibble) : Bool := s.keys.getLsbD k.toNat

/-- The address of the glyph a register value names: `(V[x] AND 0x0F) * 5` (R122). -/
def glyphAddr (b : Byte) : Word := zextByte (b &&& 0x0F#8) * 5#16

/-- The decimal digits of a byte, hundreds, tens, ones (R123). -/
def bcdDigits (b : Byte) : List Byte := [b / 100#8, b / 10#8 % 10#8, b % 10#8]

end Sys2Proof.Machine
end

