-- ==== Sys2Proof/Machine/Arithmetic.lean ====
section
/-! DEFINITION. Register and arithmetic instructions (spec/42_register_arithmetic.md). Sources are read before any write;
none can fault. -/

namespace Sys2Proof.Machine

/-- LD Vx, nn (R100). -/
def execLdImm (x : Nibble) (nn : Byte) (s : State) : Host.Outcome State Fault Refusal := .next (s.setReg x nn)

/-- ADD Vx, nn (R101): modulo 256, no flag. -/
def execAddImm (x : Nibble) (nn : Byte) (s : State) : Host.Outcome State Fault Refusal :=
  .next (s.setReg x (sumLow (s.reg x) nn))

/-- LD Vx, Vy (R102). -/
def execLdReg (x y : Nibble) (s : State) : Host.Outcome State Fault Refusal := .next (s.setReg x (s.reg y))

/-- OR Vx, Vy (R103): `VF` is left as it was. -/
def execOr (x y : Nibble) (s : State) : Host.Outcome State Fault Refusal := .next (s.setReg x (s.reg x ||| s.reg y))

/-- AND Vx, Vy (R104): `VF` is left as it was. -/
def execAnd (x y : Nibble) (s : State) : Host.Outcome State Fault Refusal := .next (s.setReg x (s.reg x &&& s.reg y))

/-- XOR Vx, Vy (R110): `VF` is left as it was. -/
def execXor (x y : Nibble) (s : State) : Host.Outcome State Fault Refusal := .next (s.setReg x (s.reg x ^^^ s.reg y))

/-- ADD Vx, Vy (R105). -/
def execAddReg (x y : Nibble) (s : State) : Host.Outcome State Fault Refusal :=
  .next (s.writeFlagLast x (sumLow (s.reg x) (s.reg y)) (carryFlag (s.reg x) (s.reg y)))

/-- SUB Vx, Vy (R106): `Vx - Vy`. -/
def execSub (x y : Nibble) (s : State) : Host.Outcome State Fault Refusal :=
  .next (s.writeFlagLast x (diffLow (s.reg x) (s.reg y)) (noBorrowFlag (s.reg x) (s.reg y)))

/-- SUBN Vx, Vy (R108): `Vy - Vx`. -/
def execSubn (x y : Nibble) (s : State) : Host.Outcome State Fault Refusal :=
  .next (s.writeFlagLast x (diffLow (s.reg y) (s.reg x)) (noBorrowFlag (s.reg y) (s.reg x)))

/-- SHR Vx (R107); the field `y` is not used. -/
def execShr (x _y : Nibble) (s : State) : Host.Outcome State Fault Refusal :=
  .next (s.shiftFlagFirst x (bitOutRight (s.reg x)) shiftRight1)

/-- SHL Vx (R109); the field `y` is not used. -/
def execShl (x _y : Nibble) (s : State) : Host.Outcome State Fault Refusal :=
  .next (s.shiftFlagFirst x (bitOutLeft (s.reg x)) shiftLeft1)

end Sys2Proof.Machine
end

