-- ==== Sys2Proof/Machine/ControlFlow.lean ====
section
/-! DEFINITION. Control-flow instructions (spec/41_control_flow.md). `PC` is already `a + 2` on entry (R83). None writes
a general register. -/

namespace Sys2Proof.Machine

/-- JP nnn (R90). -/
def execJp (nnn : Addr12) (s : State) : Host.Outcome State Fault Refusal := .next (s.setPc (zextAddr nnn))

/-- CALL nnn (R91). `SP` above 16 is no legal value (R16; log entry 5). -/
def execCall (nnn : Addr12) (s : State) : Host.Outcome State Fault Refusal :=
  if s.sp = 16#8 then .next (s.raise .stackOverflow)
  else if h : s.sp.toNat < 16 then .next ((s.pushPc h).setPc (zextAddr nnn))
  else .fault .stackPointerIllegal

/-- RET (R92). `SP` above 16 is no legal value (R16; log entry 5). -/
def execRet (s : State) : Host.Outcome State Fault Refusal :=
  if s.sp = 0#8 then .next (s.raise .stackUnderflow)
  else if h : (s.sp - 1#8).toNat < 16 then .next (s.popPc h)
  else .fault .stackPointerIllegal

/-- JP V0, nnn (R93): the register is always `V[0]`; the sum is not reduced modulo 4096. -/
def execJpV0 (nnn : Addr12) (s : State) : Host.Outcome State Fault Refusal :=
  .next (s.setPc (zextAddr nnn + zextByte (s.reg 0#4)))

/-- SE Vx, nn (R94). -/
def execSeImm (x : Nibble) (nn : Byte) (s : State) : Host.Outcome State Fault Refusal :=
  .next (s.skipIf (decide (s.reg x = nn)))

/-- SNE Vx, nn (R95). -/
def execSneImm (x : Nibble) (nn : Byte) (s : State) : Host.Outcome State Fault Refusal :=
  .next (s.skipIf (decide (s.reg x ≠ nn)))

/-- SE Vx, Vy (R96). -/
def execSeReg (x y : Nibble) (s : State) : Host.Outcome State Fault Refusal :=
  .next (s.skipIf (decide (s.reg x = s.reg y)))

/-- SNE Vx, Vy (R97). -/
def execSneReg (x y : Nibble) (s : State) : Host.Outcome State Fault Refusal :=
  .next (s.skipIf (decide (s.reg x ≠ s.reg y)))

end Sys2Proof.Machine
end

