-- ==== Sys2Proof/Machine/Display.lean ====
section
/-! DEFINITION. The display (spec/10_state.md R20) and its two instructions (spec/44_display.md). -/

namespace Sys2Proof.Machine

/-- The linear index of pixel (row `r`, column `c`), row-major (R20). -/
def pixelIndex (r c : Nat) : Nat := 64 * r + c

/-- `DISP[r][c]` of a display. -/
def pixelOf (d : BitVec 2048) (r c : Nat) : Bool := d.getLsbD (pixelIndex r c)

/-- `DISP[r][c]` (R20). -/
def State.pixel (s : State) (r c : Nat) : Bool := pixelOf s.disp r c

/-- `DISP[r][c] <- DISP[r][c] XOR 1` (R131). -/
def togglePixel (d : BitVec 2048) (r c : Nat) : BitVec 2048 := d ^^^ BitVec.twoPow 2048 (pixelIndex r c)

/-- CLS (R130): every pixel 0, nothing else. -/
def execCls (s : State) : Host.Outcome State Fault Refusal := .next (s.setDisp 0#2048)

/-- A sprite bit XORed onto pixel (`row`, `col`), with `coll` set on a 1-to-0 transition (R131). The pair is the display
and `coll`. -/
def drawBit (row col : Nat) (bit : Bool) (k : BitVec 2048 × Bool) : BitVec 2048 × Bool :=
  if bit then (togglePixel k.1 row col, k.2 || pixelOf k.1 row col) else k

/-- One sprite byte drawn at row `row` from column `x0`, bit 7 leftmost, columns modulo 64 (R131, D16). -/
def drawRow (b : Byte) (x0 row : Nat) (k : BitVec 2048 × Bool) : BitVec 2048 × Bool :=
  (List.range 8).foldl (fun k c => drawBit row ((x0 + c) % 64) (b.getLsbD (7 - c)) k) k

/-- `n` sprite bytes from address `a`, rows from `y0` modulo 32 (R131). -/
def drawSprite (m : Memory) (a x0 y0 n : Nat) (d : BitVec 2048) : BitVec 2048 × Bool :=
  (List.range n).foldl (fun k r => drawRow (m.readByte (a + r)) x0 ((y0 + r) % 32) k) (d, false)

/-- The display and the collision result of DRW: coordinates are the register values before `VF` is written (R131). -/
def State.drawn (s : State) (x y n : Nibble) : BitVec 2048 × Bool :=
  drawSprite s.mem (s.dataAddr 0) (s.reg x).toNat (s.reg y).toNat n.toNat s.disp

/-- DRW Vx, Vy, n (R131): with `n = 0` nothing is read or drawn and `VF` becomes 0. -/
def execDrw (x y n : Nibble) (s : State) : Host.Outcome State Fault Refusal :=
  s.faultOr (s.loadFault n.toNat)
    ((s.setDisp (s.drawn x y n).1).setReg flagReg (flagByte (s.drawn x y n).2))

end Sys2Proof.Machine
end

