-- ==== Sys2Proof/Machine/Input.lean ====
section
/-! DEFINITION. Input instructions (spec/46_input.md). The second half of LD Vx, K is the `key_resolve` event
(Machine/Events.lean). -/

namespace Sys2Proof.Machine

/-- SKP Vx (R150). -/
def execSkp (x : Nibble) (s : State) : Host.Outcome State Fault Refusal := .next (s.skipIf (s.keyDown (keyOf (s.reg x))))

/-- SKNP Vx (R151). -/
def execSknp (x : Nibble) (s : State) : Host.Outcome State Fault Refusal :=
  .next (s.skipIf (!s.keyDown (keyOf (s.reg x))))

/-- LD Vx, K, first half (R152): always suspends, even with a key down. -/
def execLdVxK (x : Nibble) (s : State) : Host.Outcome State Fault Refusal := .next (s.suspend x)

end Sys2Proof.Machine
end

