-- ==== Sys2Proof/Machine/MemoryIndex.lean ====
section
/-! DEFINITION. Memory and index-register instructions (spec/43_memory_index.md). `I` is changed only by the first three
(R124, D13); a load or store tests its whole range before it reads or writes (R47, R48). -/

namespace Sys2Proof.Machine

/-- LD I, nnn (R120). -/
def execLdI (nnn : Addr12) (s : State) : Host.Outcome State Fault Refusal := .next (s.setI (zextAddr nnn))

/-- ADD I, Vx (R121): modulo 65536, no flag. -/
def execAddI (x : Nibble) (s : State) : Host.Outcome State Fault Refusal := .next (s.setI (s.i + zextByte (s.reg x)))

/-- LD F, Vx (R122): no memory is read. -/
def execLdF (x : Nibble) (s : State) : Host.Outcome State Fault Refusal := .next (s.setI (glyphAddr (s.reg x)))

/-- LD B, Vx (R123). -/
def execLdB (x : Nibble) (s : State) : Host.Outcome State Fault Refusal :=
  s.faultOr (s.storeFault 3) (s.setMem (s.mem.writeBytes (s.dataAddr 0) (bcdDigits (s.reg x))))

/-- LD [I], Vx (R125). -/
def execStRegs (x : Nibble) (s : State) : Host.Outcome State Fault Refusal :=
  s.faultOr (s.storeFault (x.toNat + 1)) (s.setMem (s.mem.writeBytes (s.dataAddr 0) (s.regsTo x)))

/-- LD Vx, [I] (R126): the font may be read. -/
def execLdRegs (x : Nibble) (s : State) : Host.Outcome State Fault Refusal :=
  s.faultOr (s.loadFault (x.toNat + 1)) (s.loadRegs x)

end Sys2Proof.Machine
end

