-- ==== Sys2Proof/Machine/TimerRandom.lean ====
section
/-! DEFINITION. Timer and random instructions (spec/45_timers_random.md). -/

namespace Sys2Proof.Machine

/-- LD Vx, DT (R140). -/
def execLdVxDt (x : Nibble) (s : State) : Host.Outcome State Fault Refusal := .next (s.setReg x s.dt)

/-- LD DT, Vx (R141). -/
def execLdDtVx (x : Nibble) (s : State) : Host.Outcome State Fault Refusal := .next (s.setDt (s.reg x))

/-- LD ST, Vx (R142). -/
def execLdStVx (x : Nibble) (s : State) : Host.Outcome State Fault Refusal := .next (s.setSt (s.reg x))

/-- RND Vx, nn (R143): the random byte is a free value (log entry 3), masked by `nn`. -/
def execRnd (x : Nibble) (nn : Byte) (s : State) : Host.Outcome State Fault Refusal :=
  .next (s.consumeRnd.setReg x (s.rndByte &&& nn))

end Sys2Proof.Machine
end

