-- ==== Sys2Proof/Syntax.lean ====
section
/-! DEFINITION. The 34 instructions of spec/30_encoding.md R66, one constructor per row, in the table's order. -/

namespace Sys2Proof

/-- The decoded instructions, with the fields the decoder extracts (R62). A field holds every value its bits can
hold (R63), so no operand is ill-formed. The word that matches no row (`UNKNOWN`, R67) is no instruction. -/
inductive Instr where
  /-- 0_E0: clear display. -/
  | cls
  /-- 0_EE: return. -/
  | ret
  /-- 1NNN: jump. -/
  | jp (nnn : Addr12)
  /-- 2NNN: call. -/
  | call (nnn : Addr12)
  /-- 3XNN: skip if register equals byte. -/
  | seImm (x : Nibble) (nn : Byte)
  /-- 4XNN: skip if register differs from byte. -/
  | sneImm (x : Nibble) (nn : Byte)
  /-- 5XY_: skip if registers are equal. -/
  | seReg (x y : Nibble)
  /-- 6XNN: load immediate. -/
  | ldImm (x : Nibble) (nn : Byte)
  /-- 7XNN: add immediate. -/
  | addImm (x : Nibble) (nn : Byte)
  /-- 8XY0: copy. -/
  | ldReg (x y : Nibble)
  /-- 8XY1: bitwise or. -/
  | or (x y : Nibble)
  /-- 8XY2: bitwise and. -/
  | and (x y : Nibble)
  /-- 8XY3: bitwise exclusive or. -/
  | xor (x y : Nibble)
  /-- 8XY4: add with carry out. -/
  | addReg (x y : Nibble)
  /-- 8XY5: subtract. -/
  | sub (x y : Nibble)
  /-- 8XY6: shift right; `y` is extracted and not used. -/
  | shr (x y : Nibble)
  /-- 8XY7: reverse subtract. -/
  | subn (x y : Nibble)
  /-- 8XYE: shift left; `y` is extracted and not used. -/
  | shl (x y : Nibble)
  /-- 9XY_: skip if registers differ. -/
  | sneReg (x y : Nibble)
  /-- ANNN: set index. -/
  | ldI (nnn : Addr12)
  /-- BNNN: jump indexed by `V[0]`. -/
  | jpV0 (nnn : Addr12)
  /-- CXNN: masked random byte. -/
  | rnd (x : Nibble) (nn : Byte)
  /-- DXYN: draw a sprite of `n` rows. -/
  | drw (x y n : Nibble)
  /-- EX9E: skip if key pressed. -/
  | skp (x : Nibble)
  /-- EXA1: skip if key not pressed. -/
  | sknp (x : Nibble)
  /-- FX07: read the delay timer. -/
  | ldVxDt (x : Nibble)
  /-- FX0A: wait for a key. -/
  | ldVxK (x : Nibble)
  /-- FX15: set the delay timer. -/
  | ldDtVx (x : Nibble)
  /-- FX18: set the sound timer. -/
  | ldStVx (x : Nibble)
  /-- FX1E: add register to index. -/
  | addI (x : Nibble)
  /-- FX29: point index at a glyph. -/
  | ldF (x : Nibble)
  /-- FX33: store binary-coded decimal. -/
  | ldB (x : Nibble)
  /-- FX55: bulk store of registers 0 to `x`. -/
  | stRegs (x : Nibble)
  /-- FX65: bulk load of registers 0 to `x`. -/
  | ldRegs (x : Nibble)
  deriving DecidableEq, Repr

end Sys2Proof
end

