-- ==== Sys2Proof/WellFormed.lean ====
section
/-! DEFINITION. What may be given to the machine: instruction operands (spec/30_encoding.md R63: every field value is
legal) and the program a reset delivers (spec/70_reset_and_hazards.md R191: at most 3584 bytes). -/

namespace Sys2Proof

/-- The operands of an instruction are in the ranges of R63: a register number below 16, a byte below 256, an address
below 4096, a row count below 16. The operand types hold nothing else, so this holds of every instruction
(`Instr.wellFormed_all`); the check that can fail is `programWellFormed`. -/
def Instr.wellFormed : Instr → Bool
  | .cls | .ret => true
  | .jp nnn | .call nnn | .ldI nnn | .jpV0 nnn => decide (nnn.toNat < 4096)
  | .seImm x nn | .sneImm x nn | .ldImm x nn | .addImm x nn | .rnd x nn => decide (x.toNat < 16 ∧ nn.toNat < 256)
  | .seReg x y | .sneReg x y | .ldReg x y | .or x y | .and x y | .xor x y | .addReg x y | .sub x y | .shr x y
  | .subn x y | .shl x y => decide (x.toNat < 16 ∧ y.toNat < 16)
  | .drw x y n => decide (x.toNat < 16 ∧ y.toNat < 16 ∧ n.toNat < 16)
  | .skp x | .sknp x | .ldVxDt x | .ldVxK x | .ldDtVx x | .ldStVx x | .addI x | .ldF x | .ldB x | .stRegs x
  | .ldRegs x => decide (x.toNat < 16)

/-- A program a reset may deliver (R191): "program size ≤ 4096−512". -/
def programWellFormed (prog : List Byte) : Bool := decide (prog.length ≤ Config.progMax)

end Sys2Proof
end

