-- ==== Sys2Proof/Decode.lean ====
section
/-! DEFINITION. The decoder (spec/30_encoding.md R60 to R69) and, after it, the encoder written from the same table. -/

namespace Sys2Proof

/-! ## Fields of a word (R9, R62) -/

/-- `w[15:12]`, the primary nibble. -/
def topNibble (w : Word) : Nibble := w.extractLsb' 12 4
/-- `x = w[11:8]`. -/
def fieldX (w : Word) : Nibble := w.extractLsb' 8 4
/-- `y = w[7:4]`. -/
def fieldY (w : Word) : Nibble := w.extractLsb' 4 4
/-- `n = w[3:0]`. -/
def fieldN (w : Word) : Nibble := w.extractLsb' 0 4
/-- `nn = w[7:0]`. -/
def fieldNN (w : Word) : Byte := w.extractLsb' 0 8
/-- `nnn = w[11:0]`. -/
def fieldNNN (w : Word) : Addr12 := w.extractLsb' 0 12

/-! ## The decoder -/

/-- Family 0 sub-dispatches on the low byte and ignores `w[11:8]` (R65, D3). -/
def decode0 (w : Word) : Option Instr :=
  if fieldNN w = 0xE0#8 then some .cls
  else if fieldNN w = 0xEE#8 then some .ret
  else none

/-- Family 8 sub-dispatches on the low nibble (R65). -/
def decode8 (w : Word) : Option Instr :=
  if fieldN w = 0x0#4 then some (.ldReg (fieldX w) (fieldY w))
  else if fieldN w = 0x1#4 then some (.or (fieldX w) (fieldY w))
  else if fieldN w = 0x2#4 then some (.and (fieldX w) (fieldY w))
  else if fieldN w = 0x3#4 then some (.xor (fieldX w) (fieldY w))
  else if fieldN w = 0x4#4 then some (.addReg (fieldX w) (fieldY w))
  else if fieldN w = 0x5#4 then some (.sub (fieldX w) (fieldY w))
  else if fieldN w = 0x6#4 then some (.shr (fieldX w) (fieldY w))
  else if fieldN w = 0x7#4 then some (.subn (fieldX w) (fieldY w))
  else if fieldN w = 0xE#4 then some (.shl (fieldX w) (fieldY w))
  else none

/-- Family 0xE sub-dispatches on the low byte (R65). -/
def decodeE (w : Word) : Option Instr :=
  if fieldNN w = 0x9E#8 then some (.skp (fieldX w))
  else if fieldNN w = 0xA1#8 then some (.sknp (fieldX w))
  else none

/-- Family 0xF sub-dispatches on the low byte (R65). -/
def decodeF (w : Word) : Option Instr :=
  if fieldNN w = 0x07#8 then some (.ldVxDt (fieldX w))
  else if fieldNN w = 0x0A#8 then some (.ldVxK (fieldX w))
  else if fieldNN w = 0x15#8 then some (.ldDtVx (fieldX w))
  else if fieldNN w = 0x18#8 then some (.ldStVx (fieldX w))
  else if fieldNN w = 0x1E#8 then some (.addI (fieldX w))
  else if fieldNN w = 0x29#8 then some (.ldF (fieldX w))
  else if fieldNN w = 0x33#8 then some (.ldB (fieldX w))
  else if fieldNN w = 0x55#8 then some (.stRegs (fieldX w))
  else if fieldNN w = 0x65#8 then some (.ldRegs (fieldX w))
  else none

/-- The combinational decoder of one word (R60, R64, R65, R66). `none` is the spec's `UNKNOWN` (R67), a defined
result and not a fault. It depends on the word alone. All 16 families are defined (R64); the last arm is family 0xF. -/
def decodeWord (w : Word) : Option Instr :=
  match (topNibble w).toNat with
  | 0x0 => decode0 w
  | 0x1 => some (.jp (fieldNNN w))
  | 0x2 => some (.call (fieldNNN w))
  | 0x3 => some (.seImm (fieldX w) (fieldNN w))
  | 0x4 => some (.sneImm (fieldX w) (fieldNN w))
  | 0x5 => some (.seReg (fieldX w) (fieldY w))
  | 0x6 => some (.ldImm (fieldX w) (fieldNN w))
  | 0x7 => some (.addImm (fieldX w) (fieldNN w))
  | 0x8 => decode8 w
  | 0x9 => some (.sneReg (fieldX w) (fieldY w))
  | 0xA => some (.ldI (fieldNNN w))
  | 0xB => some (.jpV0 (fieldNNN w))
  | 0xC => some (.rnd (fieldX w) (fieldNN w))
  | 0xD => some (.drw (fieldX w) (fieldY w) (fieldN w))
  | 0xE => decodeE w
  | _   => decodeF w

/-- Why a run of bytes gives no instruction. -/
inductive DecodeError where
  /-- The word matches no row of R66: the spec's `UNKNOWN` (R67). -/
  | unknownWord (w : Word)
  /-- Fewer than the two bytes every instruction has (R61). -/
  | truncated
  deriving DecidableEq, Repr

/-- `cat(MEM[a], MEM[a+1])` (spec/20_memory.md R40): the byte at the lower address is `w[15:8]`. -/
def wordOfBytes (hi lo : Byte) : Word := hi ++ lo

/-- The byte a word stores at the lower address, `w[15:8]` (R40, R41). -/
def highByte (w : Word) : Byte := w.extractLsb' 8 8
/-- The byte a word stores at the higher address, `w[7:0]` (R40, R41). -/
def lowByte (w : Word) : Byte := w.extractLsb' 0 8

/-- Decoding from bytes, total: the instruction and the bytes after it, or a named reason (R61, R67). -/
def decodeBytes : List Byte → Except DecodeError (Instr × List Byte)
  | hi :: lo :: rest =>
    match decodeWord (wordOfBytes hi lo) with
    | some i => .ok (i, rest)
    | none => .error (.unknownWord (wordOfBytes hi lo))
  | _ => .error .truncated

/-! ## The opcode table of R66, for the encoder and for statements about the decoder -/

/-- One row of R66: a word selects it when `(w AND mask) = pattern`. -/
structure OpcodeRow where
  /-- The row's "match" column. -/
  pattern : Word
  /-- The row's "mask" column. -/
  mask : Word
  deriving DecidableEq, Repr

/-- The 34 rows of R66, in its order. -/
def opcodeTable : List OpcodeRow :=
  [⟨0x00E0#16, 0xF0FF#16⟩, ⟨0x00EE#16, 0xF0FF#16⟩, ⟨0x1000#16, 0xF000#16⟩, ⟨0x2000#16, 0xF000#16⟩,
   ⟨0x3000#16, 0xF000#16⟩, ⟨0x4000#16, 0xF000#16⟩, ⟨0x5000#16, 0xF000#16⟩, ⟨0x6000#16, 0xF000#16⟩,
   ⟨0x7000#16, 0xF000#16⟩] ++
  [⟨0x8000#16, 0xF00F#16⟩, ⟨0x8001#16, 0xF00F#16⟩, ⟨0x8002#16, 0xF00F#16⟩, ⟨0x8003#16, 0xF00F#16⟩,
   ⟨0x8004#16, 0xF00F#16⟩, ⟨0x8005#16, 0xF00F#16⟩, ⟨0x8006#16, 0xF00F#16⟩, ⟨0x8007#16, 0xF00F#16⟩,
   ⟨0x800E#16, 0xF00F#16⟩] ++
  [⟨0x9000#16, 0xF000#16⟩, ⟨0xA000#16, 0xF000#16⟩, ⟨0xB000#16, 0xF000#16⟩, ⟨0xC000#16, 0xF000#16⟩,
   ⟨0xD000#16, 0xF000#16⟩, ⟨0xE09E#16, 0xF0FF#16⟩, ⟨0xE0A1#16, 0xF0FF#16⟩] ++
  [⟨0xF007#16, 0xF0FF#16⟩, ⟨0xF00A#16, 0xF0FF#16⟩, ⟨0xF015#16, 0xF0FF#16⟩, ⟨0xF018#16, 0xF0FF#16⟩,
   ⟨0xF01E#16, 0xF0FF#16⟩, ⟨0xF029#16, 0xF0FF#16⟩, ⟨0xF033#16, 0xF0FF#16⟩, ⟨0xF055#16, 0xF0FF#16⟩,
   ⟨0xF065#16, 0xF0FF#16⟩]

/-- The row of R66 an instruction stands in. -/
def Instr.row : Instr → OpcodeRow
  | .cls => ⟨0x00E0#16, 0xF0FF#16⟩
  | .ret => ⟨0x00EE#16, 0xF0FF#16⟩
  | .jp _ => ⟨0x1000#16, 0xF000#16⟩
  | .call _ => ⟨0x2000#16, 0xF000#16⟩
  | .seImm _ _ => ⟨0x3000#16, 0xF000#16⟩
  | .sneImm _ _ => ⟨0x4000#16, 0xF000#16⟩
  | .seReg _ _ => ⟨0x5000#16, 0xF000#16⟩
  | .ldImm _ _ => ⟨0x6000#16, 0xF000#16⟩
  | .addImm _ _ => ⟨0x7000#16, 0xF000#16⟩
  | .ldReg _ _ => ⟨0x8000#16, 0xF00F#16⟩
  | .or _ _ => ⟨0x8001#16, 0xF00F#16⟩
  | .and _ _ => ⟨0x8002#16, 0xF00F#16⟩
  | .xor _ _ => ⟨0x8003#16, 0xF00F#16⟩
  | .addReg _ _ => ⟨0x8004#16, 0xF00F#16⟩
  | .sub _ _ => ⟨0x8005#16, 0xF00F#16⟩
  | .shr _ _ => ⟨0x8006#16, 0xF00F#16⟩
  | .subn _ _ => ⟨0x8007#16, 0xF00F#16⟩
  | .shl _ _ => ⟨0x800E#16, 0xF00F#16⟩
  | .sneReg _ _ => ⟨0x9000#16, 0xF000#16⟩
  | .ldI _ => ⟨0xA000#16, 0xF000#16⟩
  | .jpV0 _ => ⟨0xB000#16, 0xF000#16⟩
  | .rnd _ _ => ⟨0xC000#16, 0xF000#16⟩
  | .drw _ _ _ => ⟨0xD000#16, 0xF000#16⟩
  | .skp _ => ⟨0xE09E#16, 0xF0FF#16⟩
  | .sknp _ => ⟨0xE0A1#16, 0xF0FF#16⟩
  | .ldVxDt _ => ⟨0xF007#16, 0xF0FF#16⟩
  | .ldVxK _ => ⟨0xF00A#16, 0xF0FF#16⟩
  | .ldDtVx _ => ⟨0xF015#16, 0xF0FF#16⟩
  | .ldStVx _ => ⟨0xF018#16, 0xF0FF#16⟩
  | .addI _ => ⟨0xF01E#16, 0xF0FF#16⟩
  | .ldF _ => ⟨0xF029#16, 0xF0FF#16⟩
  | .ldB _ => ⟨0xF033#16, 0xF0FF#16⟩
  | .stRegs _ => ⟨0xF055#16, 0xF0FF#16⟩
  | .ldRegs _ => ⟨0xF065#16, 0xF0FF#16⟩

/-! ## The encoder: the canonical word (R68), ignored bits 0, laid out by the six formats of R61 -/

/-- Format `A`: `o nnn`. -/
def formatA (o : Nibble) (nnn : Addr12) : Word := o ++ nnn
/-- Format `XI`: `o x nn`. -/
def formatXI (o x : Nibble) (nn : Byte) : Word := o ++ (x ++ nn)
/-- Formats `XY` and `XYN`: `o x y s`. -/
def formatXYN (o x y s : Nibble) : Word := o ++ (x ++ (y ++ s))

/-- The canonical word of an instruction (R61, R66, R68). Format `XS` is `o x s` with a byte-wide key, as `XI`. -/
def encode : Instr → Word
  | .cls => formatXI 0x0 0x0 0xE0
  | .ret => formatXI 0x0 0x0 0xEE
  | .jp nnn => formatA 0x1 nnn
  | .call nnn => formatA 0x2 nnn
  | .seImm x nn => formatXI 0x3 x nn
  | .sneImm x nn => formatXI 0x4 x nn
  | .seReg x y => formatXYN 0x5 x y 0x0
  | .ldImm x nn => formatXI 0x6 x nn
  | .addImm x nn => formatXI 0x7 x nn
  | .ldReg x y => formatXYN 0x8 x y 0x0
  | .or x y => formatXYN 0x8 x y 0x1
  | .and x y => formatXYN 0x8 x y 0x2
  | .xor x y => formatXYN 0x8 x y 0x3
  | .addReg x y => formatXYN 0x8 x y 0x4
  | .sub x y => formatXYN 0x8 x y 0x5
  | .shr x y => formatXYN 0x8 x y 0x6
  | .subn x y => formatXYN 0x8 x y 0x7
  | .shl x y => formatXYN 0x8 x y 0xE
  | .sneReg x y => formatXYN 0x9 x y 0x0
  | .ldI nnn => formatA 0xA nnn
  | .jpV0 nnn => formatA 0xB nnn
  | .rnd x nn => formatXI 0xC x nn
  | .drw x y n => formatXYN 0xD x y n
  | .skp x => formatXI 0xE x 0x9E
  | .sknp x => formatXI 0xE x 0xA1
  | .ldVxDt x => formatXI 0xF x 0x07
  | .ldVxK x => formatXI 0xF x 0x0A
  | .ldDtVx x => formatXI 0xF x 0x15
  | .ldStVx x => formatXI 0xF x 0x18
  | .addI x => formatXI 0xF x 0x1E
  | .ldF x => formatXI 0xF x 0x29
  | .ldB x => formatXI 0xF x 0x33
  | .stRegs x => formatXI 0xF x 0x55
  | .ldRegs x => formatXI 0xF x 0x65

/-- The bytes of an instruction as memory holds them, high byte first (R40, R41). -/
def encodeBytes (i : Instr) : List Byte := [highByte (encode i), lowByte (encode i)]

/-- The bits of a word that an instruction's decoding depends on: all but the ignored bits of R65 and R68. -/
def Instr.careMask : Instr → Word
  | .cls | .ret => 0xF0FF#16
  | .seReg _ _ | .sneReg _ _ => 0xFFF0#16
  | .jp _ | .call _ | .ldI _ | .jpV0 _ | .skp _ | .sknp _ | .ldVxDt _ | .ldVxK _ | .ldDtVx _ | .ldStVx _ | .addI _
  | .ldF _ | .ldB _ | .stRegs _ | .ldRegs _ | .seImm _ _ | .sneImm _ _ | .ldImm _ _ | .addImm _ _ | .rnd _ _
  | .ldReg _ _ | .or _ _ | .and _ _ | .xor _ _ | .addReg _ _ | .sub _ _ | .shr _ _ | .subn _ _ | .shl _ _
  | .drw _ _ _ => 0xFFFF#16

/-! ## The host's entry: an instruction given as the opcode table's bits -/

/-- The word of an instruction whose first `nbits` bits are `w` and whose other bits are 0. The table numbers the one
16-bit word of this hardware as the spec does, bit 0 the least significant. -/
def tableWord (nbits w : Nat) : Word := BitVec.ofNat 16 (w % 2 ^ nbits)

/-- The instruction the decoder reads from those bits, laid out as two big-endian bytes (R40). -/
def decodeTableWord (nbits w : Nat) : Option Instr :=
  match decodeBytes [highByte (tableWord nbits w), lowByte (tableWord nbits w)] with
  | .ok (i, _) => some i
  | .error _ => none

end Sys2Proof
end

