-- ==== Sys2Proof/Machine/Fetch.lean ====
section
/-! DEFINITION. Gating, fetch check and fetch (spec/40_step_cycle.md R80 to R82), the unknown instruction (R86), and
placing a word where the next step fetches. -/

namespace Sys2Proof.Machine

/-- The step does nothing: halted by a fault or suspended in a key wait (R80). -/
def State.gated (s : State) : Bool := decide (s.fault ≠ .none) || s.wait

/-- The fetch at `PC` raises `BadFetch`: `PC` odd or above 4094 (R81). -/
def State.badFetch (s : State) : Bool := s.pc.getLsbD 0 || decide (4094 < s.pc.toNat)

/-- The two bytes the fetch reads, from current memory every time (R82, spec/20_memory.md R53). -/
def State.fetchBytes (s : State) : List Byte := [s.mem.readByte s.pc.toNat, s.mem.readByte (s.pc.toNat + 1)]

/-- UNKNOWN (R86): the `unknown` output is pulsed (Machine/Outputs.lean) and nothing changes beyond the advance that
the step has already made. -/
def execUnknown (s : State) : Host.Outcome State Fault Refusal := .next s

/-- The state in which the next step fetches: the latches that gate a step cleared, and `PC` at the reset vector where
the fetch check would refuse it. -/
def State.readyToFetch (s : State) : State :=
  { s with fault := .none, wait := false, pc := if s.badFetch then Config.resetPc else s.pc }

/-- A word stored big-endian at `PC` (R40, R41). -/
def State.placeWord (s : State) (w : Word) : State :=
  s.setMem (s.mem.writeBytes s.pc.toNat [highByte w, lowByte w])

end Sys2Proof.Machine
end

