-- ==== Sys2Proof/Machine/Step.lean ====
section
/-! DEFINITION. The step event (spec/40_step_cycle.md R80 to R86). -/

namespace Sys2Proof.Machine

/-- One `step` (R80): gating, fetch check, fetch, advance, decode, execute. An instruction runs in the state whose `PC`
is already advanced (R83). -/
def step (s : State) : Host.Outcome State Fault Refusal :=
  if s.gated then .next s
  else if s.badFetch then .next (s.raise .badFetch)
  else
    match decodeBytes s.fetchBytes with
    | .ok (i, _) => exec i s.advance
    | .error _ => execUnknown s.advance

/-- The instruction whose bits are `w`, stored where the next step fetches it (the host's entry; log entry 11). -/
def State.withFetchWord (s : State) (nbits w : Nat) : State := s.readyToFetch.placeWord (tableWord nbits w)

end Sys2Proof.Machine
end

