-- ==== Sys2Proof/Machine/Events.lean ====
section
/-! DEFINITION. The host events (spec/60_exceptions.md R180), the complete interface by which anything acts on the core:
each is one atomic function on the state; the host may apply them in any order (R182; log entry 4). -/

namespace Sys2Proof.Machine

/-- The five events of R180 with their inputs. -/
inductive Event where
  /-- `reset(prog)` (spec/70_reset_and_hazards.md R190). -/
  | reset (prog : List Byte)
  /-- `step(rnd)` (R80). -/
  | step (rnd : Byte)
  /-- `tick()` (R170). -/
  | tick
  /-- `key_set(k16)` (R181). -/
  | keySet (k16 : BitVec 16)
  /-- `key_resolve(k)` (R152). -/
  | keyResolve (k : Nibble)
  deriving DecidableEq, Repr

/-- `MEM` after a reset (R190, R23): `FONT` from 0, the program from 512, 0 elsewhere. -/
def Memory.afterReset (font : Font) (prog : List Byte) : Memory :=
  (Memory.writeBytes [] 0 font.toList).writeBytes Config.progBase prog

/-- The state `reset(prog)` leaves with the parameter `FONT` (R190): it depends on nothing that came before. `draws` is
the model's own count of consumed random bytes and runs on (log entry 3). -/
def State.afterReset (font : Font) (prog : List Byte) (s : State) : State :=
  { State.reset with mem := Memory.afterReset font prog, draws := s.draws }

/-- `reset(prog)`: a program of more than 3584 bytes "has no defined effect" and is refused (R191; log entry 6). -/
def resetEvent (font : Font) (prog : List Byte) (s : State) : Host.Outcome State Fault Refusal :=
  if programWellFormed prog then .next (State.afterReset font prog s) else .refused .oversizedProgram

/-- One timer counted down, floored at 0 (R170). -/
def countDown (t : Byte) : Byte := if 0 < t.toNat then t - 1#8 else t

/-- `tick()` (R170): not gated by `WAIT` or `FAULT` (D21). -/
def tickEvent (s : State) : State := (s.setDt (countDown s.dt)).setSt (countDown s.st)

/-- `key_set(k16)` (R181): all 16 flags replaced; it never resolves a wait. -/
def keySetEvent (k16 : BitVec 16) (s : State) : State := s.setKeys k16

/-- `key_resolve(k)` (R152): ignored unless the core waits; not gated by `FAULT`; `KEYS` is not consulted (D22). -/
def keyResolveEvent (k : Nibble) (s : State) : State :=
  if s.wait then (s.setReg s.waitx (k.setWidth 8)).resume else s

/-- Apply `f` to the state an outcome answers, if it answers one. -/
def mapNext (f : State → State) : Host.Outcome State Fault Refusal → Host.Outcome State Fault Refusal
  | .next t => .next (f t)
  | .fault r => .fault r
  | .refused r => .refused r

/-- `step(rnd)`: a step with the byte `b` on the `rnd` input, which is gone after it (R29, R143). -/
def stepEvent (b : Byte) (s : State) : Host.Outcome State Fault Refusal :=
  mapNext (fun t => t.setRndIn Option.none) (step (s.setRndIn (some b)))

/-- The effect of one host event (R180) on the core whose parameter `FONT` is `font` (R6); only `reset` reads it. -/
def applyEvent (font : Font) (e : Event) (s : State) : Host.Outcome State Fault Refusal :=
  match e with
  | .reset prog => resetEvent font prog s
  | .step b => stepEvent b s
  | .tick => .next (tickEvent s)
  | .keySet k16 => .next (keySetEvent k16 s)
  | .keyResolve k => .next (keyResolveEvent k s)

/-- Host events one after another, in the order the host issues them; no two overlap (R180). -/
def runEvents (font : Font) : List Event → State → Host.Outcome State Fault Refusal
  | [], s => .next s
  | e :: es, s =>
    match applyEvent font e s with
    | .next t => runEvents font es t
    | .fault r => .fault r
    | .refused r => .refused r

end Sys2Proof.Machine
end

