-- ==== Sys2Proof/Machine/Outputs.lean ====
section
/-! DEFINITION. What the host observes (spec/60_exceptions.md R175 to R179): levels are functions of the state, pulses of
one event; none feeds back into the core (R87). -/

namespace Sys2Proof.Machine

/-- Output `sound` (R177): `ST ≠ 0`. -/
def State.soundOut (s : State) : Bool := decide (s.st ≠ 0#8)

/-- Output `key_wait` (R178), equal to `WAIT`. -/
def State.keyWaitOut (s : State) : Bool := s.wait

/-- Output `fault` (R178), the 3 bits of `FAULT`. -/
def State.faultOut (s : State) : BitVec 3 := s.fault.code

/-- Output `DISP` (R176), the display array itself. -/
def State.dispOut (s : State) : BitVec 2048 := s.disp

/-- The step from `s` executes UNKNOWN: it is not gated, its fetch succeeds and the word matches no row (R86). -/
def State.stepsUnknown (s : State) : Bool :=
  !s.gated && !s.badFetch &&
    match decodeBytes s.fetchBytes with
    | .ok _ => false
    | .error _ => true

/-- Output `unknown` during an event from `s` (R175): the pulse of a step that executes UNKNOWN. -/
def unknownPulse (e : Event) (s : State) : Bool :=
  match e with
  | .step _ => s.stepsUnknown
  | .reset _ | .tick | .keySet _ | .keyResolve _ => false

/-- Output `frame` during an event (R179): the pulse of each tick. -/
def framePulse (e : Event) : Bool :=
  match e with
  | .tick => true
  | .reset _ | .step _ | .keySet _ | .keyResolve _ => false

end Sys2Proof.Machine
end

