-- ==== Sys2Proof/Safety.lean ====
section
/-! DEFINITION. The terms statements use: what is left unchanged, what a legal state is (spec/10_state.md R28), what a
sprite covers (spec/44_display.md R131), and what a safe run is. -/

namespace Sys2Proof.Machine

/-! ## What is left unchanged -/

/-- The pieces of state of R30, and the model's `rnd` input. -/
inductive Part where
  | v | i | pc | sp | stack | dt | st | mem | disp | keys | wait | waitx | fault | rnd
  deriving DecidableEq, Repr

/-- A piece of state is the same in `t` as in `s`; registers, memory and stack through their reads. -/
def Part.Same : Part → State → State → Prop
  | .v, s, t => ∀ r, t.reg r = s.reg r
  | .i, s, t => t.i = s.i
  | .pc, s, t => t.pc = s.pc
  | .sp, s, t => t.sp = s.sp
  | .stack, s, t => ∀ k : Fin 16, t.stack[k] = s.stack[k]
  | .dt, s, t => t.dt = s.dt
  | .st, s, t => t.st = s.st
  | .mem, s, t => ∀ a, t.mem.readByte a = s.mem.readByte a
  | .disp, s, t => t.disp = s.disp
  | .keys, s, t => t.keys = s.keys
  | .wait, s, t => t.wait = s.wait
  | .waitx, s, t => t.waitx = s.waitx
  | .fault, s, t => t.fault = s.fault
  | .rnd, s, t => t.rndIn = s.rndIn ∧ t.draws = s.draws

/-- Nothing but the listed pieces of state may differ between `s` and `t`. -/
def OnlyChanges (ps : List Part) (s t : State) : Prop := ∀ p, p ∉ ps → p.Same s t

/-- Every general register but the listed ones reads as before. -/
def RegsKeptBut (xs : List Nibble) (s t : State) : Prop := ∀ r, r ∉ xs → t.reg r = s.reg r

/-- Every byte of memory outside the `count` bytes from `lo` reads as before. -/
def BytesKeptBut (lo count : Nat) (s t : State) : Prop :=
  ∀ a, a < lo ∨ lo + count ≤ a → t.mem.readByte a = s.mem.readByte a

/-- Every stack entry but entry `k` is as before. -/
def StackKeptBut (k : Nat) (s t : State) : Prop := ∀ j : Fin 16, j.val ≠ k → t.stack[j] = s.stack[j]

/-! ## Legal states (R14 to R17, R22, R25, R28, R48) -/

/-- What holds in every state a run of the core with parameter `FONT` = `font` reaches. The clause on memory's form is the
model's own (log entry 1). -/
structure Legal (font : Font) (s : State) : Prop where
  /-- "stack pointer ∈ [0,16]" (R16, R28). -/
  spLegal : s.sp.toNat ≤ 16
  /-- `PC` never passes `0xFFF + 0xFF` (R15). -/
  pcBound : s.pc.toNat ≤ 4350
  /-- A live return address is even and at most 4096 (R91, R17). -/
  liveReturns : ∀ k : Fin 16, k.val < s.sp.toNat → s.stack[k].toNat % 2 = 0 ∧ s.stack[k].toNat ≤ 4096
  /-- Memory is in its canonical form, and lists no address that does not exist (R22). -/
  memCanonical : s.mem.wf
  /-- The font cells hold `FONT` (R23, R48). -/
  fontKept : ∀ k : Fin 80, s.mem.readByte k.val = font[k]
  /-- `WAIT = 1` and `FAULT ≠ 0` never hold together (R164). -/
  waitNoFault : s.wait = true → s.fault = .none

/-! ## Where a step executes, and what it may latch -/

/-- The next step executes an instruction or UNKNOWN: no latch gates it and its fetch succeeds (R80, R81). -/
def State.Runs (s : State) : Prop :=
  s.fault = .none ∧ s.wait = false ∧ s.pc.toNat % 2 = 0 ∧ s.pc.toNat ≤ 4094

/-- The word at `PC`, as a number: `MEM[PC]` is the more significant byte (R40). -/
def State.WordAtPc (s : State) (w : Word) : Prop :=
  w.toNat = 256 * (s.mem.readByte s.pc.toNat).toNat + (s.mem.readByte (s.pc.toNat + 1)).toNat

/-- The fault R161 gives an instruction executed in `s`, `none` where it gives none. -/
def executionFault (i : Instr) (s : State) : FaultCode :=
  match i with
  | .call _ => if s.sp.toNat = 16 then .stackOverflow else .none
  | .ret => if s.sp.toNat = 0 then .stackUnderflow else .none
  | .drw _ _ n => if 1 ≤ n.toNat ∧ 4096 < s.i.toNat + n.toNat then .memRange else .none
  | .ldB _ => if 4093 < s.i.toNat then .memRange else if s.i.toNat < 80 then .writeProtect else .none
  | .stRegs x => if 4095 < s.i.toNat + x.toNat then .memRange else if s.i.toNat < 80 then .writeProtect else .none
  | .ldRegs x => if 4095 < s.i.toNat + x.toNat then .memRange else .none
  | .cls | .jp _ | .ldI _ | .jpV0 _ | .seImm _ _ | .sneImm _ _ | .ldImm _ _ | .addImm _ _ | .rnd _ _ | .seReg _ _
  | .sneReg _ _ | .ldReg _ _ | .or _ _ | .and _ _ | .xor _ _ | .addReg _ _ | .sub _ _ | .shr _ _ | .subn _ _
  | .shl _ _ | .skp _ | .sknp _ | .ldVxDt _ | .ldVxK _ | .ldDtVx _ | .ldStVx _ | .addI _ | .ldF _ => .none

/-- A safe step: it answers a next state, and no fault is latched in it. -/
def SafeStep (s : State) : Prop := ∃ t, step s = .next t ∧ t.fault = .none

/-! ## What an instruction may write, by its form -/

/-- The general registers an instruction may write: its destination field, and `VF` for the six of R12. -/
def mayWriteReg (i : Instr) (r : Nibble) : Bool :=
  match i with
  | .ldImm x _ | .addImm x _ | .rnd x _ | .ldReg x _ | .or x _ | .and x _ | .xor x _ | .ldVxDt x => decide (r = x)
  | .addReg x _ | .sub x _ | .shr x _ | .subn x _ | .shl x _ => decide (r = x ∨ r = flagReg)
  | .drw _ _ _ => decide (r = flagReg)
  | .ldRegs x => decide (r.toNat ≤ x.toNat)
  | .cls | .ret | .jp _ | .call _ | .ldI _ | .jpV0 _ | .seImm _ _ | .sneImm _ _ | .seReg _ _ | .sneReg _ _ | .skp _
  | .sknp _ | .ldVxK _ | .ldDtVx _ | .ldStVx _ | .addI _ | .ldF _ | .ldB _ | .stRegs _ => false

/-- The condition of a skip instruction in `s` (R94 to R97, R150, R151); `none` for any other instruction. -/
def skipCondition (i : Instr) (s : State) : Option Bool :=
  match i with
  | .seImm x nn => some (decide ((s.reg x).toNat = nn.toNat))
  | .sneImm x nn => some (decide ((s.reg x).toNat ≠ nn.toNat))
  | .seReg x y => some (decide ((s.reg x).toNat = (s.reg y).toNat))
  | .sneReg x y => some (decide ((s.reg x).toNat ≠ (s.reg y).toNat))
  | .skp x => some (s.keys.getLsbD ((s.reg x).toNat % 16))
  | .sknp x => some (!s.keys.getLsbD ((s.reg x).toNat % 16))
  | .cls | .ret | .jp _ | .call _ | .ldI _ | .jpV0 _ | .ldImm _ _ | .addImm _ _ | .rnd _ _ | .ldReg _ _ | .or _ _
  | .and _ _ | .xor _ _ | .addReg _ _ | .sub _ _ | .shr _ _ | .subn _ _ | .shl _ _ | .drw _ _ _ | .ldVxDt _
  | .ldVxK _ | .ldDtVx _ | .ldStVx _ | .addI _ | .ldF _ | .ldB _ | .stRegs _ | .ldRegs _ => Option.none

/-! ## What a sprite covers (R131, R132) -/

/-- Bit `c` (from the left) of sprite row `r`: bit 7 of a sprite byte is the leftmost pixel (R131, D16). -/
def State.spriteBitAt (s : State) (r c : Nat) : Bool := (s.mem.readByte (s.i.toNat + r)).getLsbD (7 - c)

/-- The sprite at `(y0, x0)` of `n` bytes from address `a` has a 1 bit that lands on pixel (`r`, `c`): the pixel is
`dr` rows below and `dc` columns right of the sprite's corner, both wrapped, inside the `n` by 8 footprint. -/
def spriteBit (m : Memory) (a x0 y0 n r c : Nat) : Bool :=
  let dr := (r + 32 - y0 % 32) % 32
  let dc := (c + 64 - x0 % 64) % 64
  decide (dr < n) && (decide (dc < 8) && (m.readByte (a + dr)).getLsbD (7 - dc))

end Sys2Proof.Machine
end

