-- ==== Sys2Proof/Certificates/Slice0/Obligations.lean ====
section
/-! DEFINITION. What is claimed of the model, each statement a definition for the provers. Rules R<n> are spec/'s. In an
`exec` statement `s` is the state in which the instruction executes: `PC` is already advanced past it (R83). `font` is any value of the parameter `FONT` (R6), which only a reset reads. -/

open Sys2Proof Sys2Proof.Machine

/-! ## Encoding -/

/-- Decoding the canonical word of any instruction gives it back, from the word and from bytes (R60 to R63, R66). -/
def Obligations.DecodeOfEncode : Prop :=
  ∀ (i : Instr) (rest : List Byte), decodeWord (encode i) = some i ∧ decodeBytes (encodeBytes i ++ rest) = .ok (i, rest)

/-- A word that decodes is the canonical word of what it decodes to, but for the ignored bits (R62, R65, R68). -/
def Obligations.EncodeOfDecode : Prop :=
  ∀ (w : Word) (i : Instr), decodeWord w = some i → encode i = w &&& i.careMask

/-- R66: 34 rows; a word selects a row exactly when `(w AND mask) = match`, and no word selects two rows. -/
def Obligations.WordSelectsRowByMask : Prop :=
  opcodeTable.length = 34 ∧
  (∀ (w : Word) (r : OpcodeRow), r ∈ opcodeTable →
    (w &&& r.mask = r.pattern ↔ ∃ i, decodeWord w = some i ∧ i.row = r)) ∧
  ∀ (w : Word) (r q : OpcodeRow), r ∈ opcodeTable → q ∈ opcodeTable → w &&& r.mask = r.pattern →
    w &&& q.mask = q.pattern → r = q

/-- The conditions of R67: these words and no others decode to UNKNOWN. -/
def Obligations.UnknownWordsExactly : Prop :=
  ∀ w : Word, decodeWord w = none ↔
    (w.toNat / 4096 = 0 ∧ w.toNat % 256 ≠ 0xE0 ∧ w.toNat % 256 ≠ 0xEE) ∨
    (w.toNat / 4096 = 8 ∧ (8 ≤ w.toNat % 16 ∧ w.toNat % 16 ≤ 13 ∨ w.toNat % 16 = 15)) ∨
    (w.toNat / 4096 = 14 ∧ w.toNat % 256 ≠ 0x9E ∧ w.toNat % 256 ≠ 0xA1) ∨
    (w.toNat / 4096 = 15 ∧ w.toNat % 256 ∉ [0x07, 0x0A, 0x15, 0x18, 0x1E, 0x29, 0x33, 0x55, 0x65])

/-- The five words the source prints (R72). -/
def Obligations.SourceWordsDecode : Prop :=
  decodeWord 0x6A02 = some (.ldImm 0xA 0x02) ∧ decodeWord 0x7A03 = some (.addImm 0xA 0x03) ∧
  decodeWord 0x00E0 = some .cls ∧ decodeWord 0xA050 = some (.ldI 0x050) ∧ decodeWord 0xF029 = some (.ldF 0)

/-- Words of spec/95_test_vectors.md 2.1, one for each family that the source's own words leave out, two of them with
ignored bits set. -/
def Obligations.VectorWordsDecode : Prop :=
  decodeWord 0x01EE = some .ret ∧ decodeWord 0x2ABC = some (.call 0xABC) ∧ decodeWord 0x5AB7 = some (.seReg 0xA 0xB) ∧
  decodeWord 0x8AB5 = some (.sub 0xA 0xB) ∧ decodeWord 0x8ABE = some (.shl 0xA 0xB) ∧
  decodeWord 0xCA12 = some (.rnd 0xA 0x12) ∧ decodeWord 0xDAB5 = some (.drw 0xA 0xB 5) ∧
  decodeWord 0xEAA1 = some (.sknp 0xA) ∧ decodeWord 0xFA15 = some (.ldDtVx 0xA) ∧
  decodeWord 0xFA65 = some (.ldRegs 0xA) ∧ decodeWord 0x0000 = none ∧ decodeWord 0x8AB8 = none

/-! ## The step -/

/-- Where no latch gates the step and the fetch succeeds, the step is the decoded instruction executed in the state
whose `PC` is advanced by 2 and nothing else changed (R82, R83). For the event `step(rnd)` with its byte see
`RndMasksTheRandomByte`. -/
def Obligations.StepRunsDecodedInstruction : Prop :=
  ∀ (s : State) (w : Word) (i : Instr), s.Runs → s.WordAtPc w → decodeWord w = some i →
    Machine.step s = exec i s.advance ∧ s.advance.pc.toNat = s.pc.toNat + 2 ∧ OnlyChanges [.pc] s s.advance

/-- The gating of R80: halted or suspended, a step changes nothing at all, and the event `step(rnd)` nothing but the
model's `rnd` field. -/
def Obligations.GatedStepChangesNothing : Prop :=
  ∀ s : State, s.fault ≠ .none ∨ s.wait = true → Machine.step s = .next s ∧
    ∀ (font : Font) (b : Byte), ∃ t, applyEvent font (.step b) s = .next t ∧ OnlyChanges [.rnd] s t

/-- R81: a fetch with `PC` odd or above 4094 latches `FAULT` = 1; `PC` and all else are unchanged (in the event, all but
the model's `rnd` field). -/
def Obligations.BadFetchLatchesCode : Prop :=
  ∀ s : State, s.fault = .none → s.wait = false → s.pc.toNat % 2 = 1 ∨ 4094 < s.pc.toNat →
    (∃ t, Machine.step s = .next t ∧ t.fault = .badFetch ∧ t.faultOut = 1 ∧ OnlyChanges [.fault] s t) ∧
    ∀ (font : Font) (b : Byte), ∃ t, applyEvent font (.step b) s = .next t ∧ t.fault = .badFetch ∧
      OnlyChanges [.fault, .rnd] s t

/-- R86: a word that decodes to nothing only advances `PC`, sets no fault, and pulses `unknown` (the event writes the
model's `rnd` field too). -/
def Obligations.UnknownOnlyAdvances : Prop :=
  ∀ (s : State) (w : Word), s.Runs → s.WordAtPc w → decodeWord w = none →
    (∃ t, Machine.step s = .next t ∧ t.pc.toNat = s.pc.toNat + 2 ∧ OnlyChanges [.pc] s t) ∧
    ∀ (font : Font) (b : Byte), unknownPulse (.step b) s = true ∧ ∃ t, applyEvent font (.step b) s = .next t ∧
      t.pc.toNat = s.pc.toNat + 2 ∧ OnlyChanges [.pc, .rnd] s t

/-- R175: `unknown` is 1 during a step that executes UNKNOWN and 0 during anything else. -/
def Obligations.UnknownPulseExactly : Prop :=
  ∀ (e : Event) (s : State) (w : Word), s.WordAtPc w →
    (unknownPulse e s = true ↔ (∃ b, e = .step b) ∧ s.Runs ∧ decodeWord w = none)

/-! ## Control flow -/

/-- R90. -/
def Obligations.JpSetsPc : Prop :=
  ∀ (nnn : Addr12) (s : State), (Instr.jp nnn).row = ⟨0x1000, 0xF000⟩ ∧
    ∃ t, exec (.jp nnn) s = .next t ∧ t.pc.toNat = nnn.toNat ∧ OnlyChanges [.pc] s t

/-- R91: with a free slot the advanced `PC` is pushed; with 16 entries `StackOverflow` (code 2) and nothing else. -/
def Obligations.CallPushesOrOverflows : Prop :=
  ∀ (nnn : Addr12) (s : State), (Instr.call nnn).row = ⟨0x2000, 0xF000⟩ ∧
    (s.sp.toNat ≤ 15 → ∃ t, exec (.call nnn) s = .next t ∧ t.pc.toNat = nnn.toNat ∧ t.sp.toNat = s.sp.toNat + 1 ∧
      (∀ k : Fin 16, k.val = s.sp.toNat → t.stack[k] = s.pc) ∧ StackKeptBut s.sp.toNat s t ∧
      OnlyChanges [.pc, .sp, .stack] s t) ∧
    (s.sp.toNat = 16 → ∃ t, exec (.call nnn) s = .next t ∧ t.fault = .stackOverflow ∧ t.faultOut = 2 ∧
      OnlyChanges [.fault] s t)

/-- R92: with a live entry it is popped into `PC` and stays in `STACK`; with none `StackUnderflow` (code 3). -/
def Obligations.RetPopsOrUnderflows : Prop :=
  ∀ s : State, Instr.ret.row = ⟨0x00EE, 0xF0FF⟩ ∧
    (1 ≤ s.sp.toNat → s.sp.toNat ≤ 16 → ∃ t, exec .ret s = .next t ∧ t.sp.toNat = s.sp.toNat - 1 ∧
      (∀ k : Fin 16, k.val = s.sp.toNat - 1 → t.pc = s.stack[k]) ∧ OnlyChanges [.pc, .sp] s t) ∧
    (s.sp.toNat = 0 → ∃ t, exec .ret s = .next t ∧ t.fault = .stackUnderflow ∧ t.faultOut = 3 ∧
      OnlyChanges [.fault] s t)

/-- A RET right after a CALL is back at the instruction after the CALL, with the stack pointer as it was; only the dead
stack entry differs (R91, R92). -/
def Obligations.RetUndoesCall : Prop :=
  ∀ (nnn : Addr12) (s : State), s.sp.toNat ≤ 15 →
    ∃ t u, exec (.call nnn) s = .next t ∧ exec .ret t = .next u ∧ StackKeptBut s.sp.toNat s u ∧ OnlyChanges [.stack] s u

/-- THE MODEL'S CHOICE (log entry 5): in a state whose `SP` is above 16, which R16 says is no legal value, CALL and RET
stop by name. -/
def Obligations.IllegalStackPointerStops : Prop :=
  ∀ (nnn : Addr12) (s : State), 16 < s.sp.toNat →
    exec (.call nnn) s = .fault .stackPointerIllegal ∧ exec .ret s = .fault .stackPointerIllegal

/-- R93: the sum with `V[0]` is exact, not reduced modulo 4096. -/
def Obligations.JpV0AddsRegisterZero : Prop :=
  ∀ (nnn : Addr12) (s : State), (Instr.jpV0 nnn).row = ⟨0xB000, 0xF000⟩ ∧
    ∃ t, exec (.jpV0 nnn) s = .next t ∧ t.pc.toNat = nnn.toNat + (s.reg 0).toNat ∧ OnlyChanges [.pc] s t

/-- R94 to R97: a skip adds 2 to the advanced `PC` when its condition holds, else nothing. -/
def Obligations.RegisterSkips : Prop :=
  ∀ (x y : Nibble) (nn : Byte) (s : State),
    ((Instr.seImm x nn).row = ⟨0x3000, 0xF000⟩ ∧ (Instr.sneImm x nn).row = ⟨0x4000, 0xF000⟩ ∧
      (Instr.seReg x y).row = ⟨0x5000, 0xF000⟩ ∧ (Instr.sneReg x y).row = ⟨0x9000, 0xF000⟩) ∧
    (∃ t, exec (.seImm x nn) s = .next t ∧ t.pc = (if (s.reg x).toNat = nn.toNat then s.pc + 2 else s.pc) ∧
      OnlyChanges [.pc] s t) ∧
    (∃ t, exec (.sneImm x nn) s = .next t ∧ t.pc = (if (s.reg x).toNat = nn.toNat then s.pc else s.pc + 2) ∧
      OnlyChanges [.pc] s t) ∧
    (∃ t, exec (.seReg x y) s = .next t ∧ t.pc = (if (s.reg x).toNat = (s.reg y).toNat then s.pc + 2 else s.pc) ∧
      OnlyChanges [.pc] s t) ∧
    ∃ t, exec (.sneReg x y) s = .next t ∧ t.pc = (if (s.reg x).toNat = (s.reg y).toNat then s.pc else s.pc + 2) ∧
      OnlyChanges [.pc] s t

/-- R150, R151: only the low nibble of `Vx` selects the key. -/
def Obligations.KeySkips : Prop :=
  ∀ (x : Nibble) (s : State),
    ((Instr.skp x).row = ⟨0xE09E, 0xF0FF⟩ ∧ (Instr.sknp x).row = ⟨0xE0A1, 0xF0FF⟩) ∧
    (∃ t, exec (.skp x) s = .next t ∧
      t.pc = (if s.keys.getLsbD ((s.reg x).toNat % 16) = true then s.pc + 2 else s.pc) ∧ OnlyChanges [.pc] s t) ∧
    ∃ t, exec (.sknp x) s = .next t ∧
      t.pc = (if s.keys.getLsbD ((s.reg x).toNat % 16) = true then s.pc else s.pc + 2) ∧ OnlyChanges [.pc] s t

/-- The six skips in a whole step: `PC` goes on by exactly 4 when the condition holds, by exactly 2 otherwise (R83, and
the source property S9). -/
def Obligations.SkipStepAdvancesFourOrTwo : Prop :=
  ∀ (s : State) (w : Word) (i : Instr) (c : Bool), s.Runs → s.WordAtPc w → decodeWord w = some i →
    skipCondition i s = some c →
    ∃ t, Machine.step s = .next t ∧ t.pc.toNat = s.pc.toNat + (if c then 4 else 2) ∧ OnlyChanges [.pc] s t

/-! ## Registers and arithmetic -/

/-- R100, R102. -/
def Obligations.LoadImmediateAndCopy : Prop :=
  ∀ (x y : Nibble) (nn : Byte) (s : State),
    ((Instr.ldImm x nn).row = ⟨0x6000, 0xF000⟩ ∧ (Instr.ldReg x y).row = ⟨0x8000, 0xF00F⟩) ∧
    (∃ t, exec (.ldImm x nn) s = .next t ∧ t.reg x = nn ∧ RegsKeptBut [x] s t ∧ OnlyChanges [.v] s t) ∧
    ∃ t, exec (.ldReg x y) s = .next t ∧ t.reg x = s.reg y ∧ RegsKeptBut [x] s t ∧ OnlyChanges [.v] s t

/-- R101: modulo 256, and no flag: `VF` is kept unless it is the destination. -/
def Obligations.AddImmediateWraps : Prop :=
  ∀ (x : Nibble) (nn : Byte) (s : State), (Instr.addImm x nn).row = ⟨0x7000, 0xF000⟩ ∧
    ∃ t, exec (.addImm x nn) s = .next t ∧ (t.reg x).toNat = ((s.reg x).toNat + nn.toNat) % 256 ∧
      RegsKeptBut [x] s t ∧ OnlyChanges [.v] s t

/-- R103, R104, R110, bit by bit; `VF` is kept unless it is the destination. -/
def Obligations.BitwiseOperations : Prop :=
  ∀ (x y : Nibble) (s : State),
    ((Instr.or x y).row = ⟨0x8001, 0xF00F⟩ ∧ (Instr.and x y).row = ⟨0x8002, 0xF00F⟩ ∧
      (Instr.xor x y).row = ⟨0x8003, 0xF00F⟩) ∧
    (∃ t, exec (.or x y) s = .next t ∧
      (∀ k, (t.reg x).getLsbD k = true ↔ (s.reg x).getLsbD k = true ∨ (s.reg y).getLsbD k = true) ∧
      RegsKeptBut [x] s t ∧ OnlyChanges [.v] s t) ∧
    (∃ t, exec (.and x y) s = .next t ∧
      (∀ k, (t.reg x).getLsbD k = true ↔ (s.reg x).getLsbD k = true ∧ (s.reg y).getLsbD k = true) ∧
      RegsKeptBut [x] s t ∧ OnlyChanges [.v] s t) ∧
    ∃ t, exec (.xor x y) s = .next t ∧
      (∀ k, (t.reg x).getLsbD k = true ↔ (s.reg x).getLsbD k ≠ (s.reg y).getLsbD k) ∧
      RegsKeptBut [x] s t ∧ OnlyChanges [.v] s t

/-- R105: the flag is written last, so with `x = 15` it is what stays. -/
def Obligations.AddSetsCarryLast : Prop :=
  ∀ (x y : Nibble) (s : State), (Instr.addReg x y).row = ⟨0x8004, 0xF00F⟩ ∧
    ∃ t, exec (.addReg x y) s = .next t ∧
      (x ≠ flagReg → (t.reg x).toNat = ((s.reg x).toNat + (s.reg y).toNat) % 256) ∧
      (t.reg flagReg).toNat = (if (s.reg x).toNat + (s.reg y).toNat > 255 then 1 else 0) ∧
      RegsKeptBut [x, flagReg] s t ∧ OnlyChanges [.v] s t

/-- R106: `Vx - Vy` as a signed integer, its low 8 bits, and the flag 1 when it is not negative, written last. -/
def Obligations.SubSetsNoBorrowLast : Prop :=
  ∀ (x y : Nibble) (s : State), (Instr.sub x y).row = ⟨0x8005, 0xF00F⟩ ∧
    ∃ t, exec (.sub x y) s = .next t ∧
      (x ≠ flagReg → ((t.reg x).toNat : Int) = ((s.reg x).toNat - (s.reg y).toNat : Int) % 256) ∧
      (t.reg flagReg).toNat = (if ((s.reg x).toNat - (s.reg y).toNat : Int) ≥ 0 then 1 else 0) ∧
      RegsKeptBut [x, flagReg] s t ∧ OnlyChanges [.v] s t

/-- R108: `Vy - Vx` by the rule of SUB with the operands exchanged. -/
def Obligations.SubnSetsNoBorrowLast : Prop :=
  ∀ (x y : Nibble) (s : State), (Instr.subn x y).row = ⟨0x8007, 0xF00F⟩ ∧
    ∃ t, exec (.subn x y) s = .next t ∧
      (x ≠ flagReg → ((t.reg x).toNat : Int) = ((s.reg y).toNat - (s.reg x).toNat : Int) % 256) ∧
      (t.reg flagReg).toNat = (if ((s.reg y).toNat - (s.reg x).toNat : Int) ≥ 0 then 1 else 0) ∧
      RegsKeptBut [x, flagReg] s t ∧ OnlyChanges [.v] s t

/-- R107: bit 0 to `VF`, then the shift; with `x = 15` the register always ends 0. The field `y` takes no part. -/
def Obligations.ShrShiftsInPlace : Prop :=
  ∀ (x y : Nibble) (s : State), (Instr.shr x y).row = ⟨0x8006, 0xF00F⟩ ∧
    ∃ t, exec (.shr x y) s = .next t ∧
      (x ≠ flagReg → (t.reg x).toNat = (s.reg x).toNat / 2 ∧ (t.reg flagReg).toNat = (s.reg x).toNat % 2) ∧
      (x = flagReg → (t.reg flagReg).toNat = 0) ∧ RegsKeptBut [x, flagReg] s t ∧ OnlyChanges [.v] s t

/-- R109: bit 7 to `VF`, then the shift; with `x = 15` the register ends 0 or 2. The field `y` takes no part. -/
def Obligations.ShlShiftsInPlace : Prop :=
  ∀ (x y : Nibble) (s : State), (Instr.shl x y).row = ⟨0x800E, 0xF00F⟩ ∧
    ∃ t, exec (.shl x y) s = .next t ∧
      (x ≠ flagReg → (t.reg x).toNat = (s.reg x).toNat * 2 % 256 ∧ (t.reg flagReg).toNat = (s.reg x).toNat / 128) ∧
      (x = flagReg → (t.reg flagReg).toNat = (if 128 ≤ (s.reg flagReg).toNat then 2 else 0)) ∧
      RegsKeptBut [x, flagReg] s t ∧ OnlyChanges [.v] s t

/-! ## Memory and the index register -/

/-- R120, R121, R122. -/
def Obligations.IndexInstructions : Prop :=
  ∀ (nnn : Addr12) (x : Nibble) (s : State),
    ((Instr.ldI nnn).row = ⟨0xA000, 0xF000⟩ ∧ (Instr.addI x).row = ⟨0xF01E, 0xF0FF⟩ ∧
      (Instr.ldF x).row = ⟨0xF029, 0xF0FF⟩) ∧
    (∃ t, exec (.ldI nnn) s = .next t ∧ t.i.toNat = nnn.toNat ∧ OnlyChanges [.i] s t) ∧
    (∃ t, exec (.addI x) s = .next t ∧ t.i.toNat = (s.i.toNat + (s.reg x).toNat) % 65536 ∧ OnlyChanges [.i] s t) ∧
    ∃ t, exec (.ldF x) s = .next t ∧ t.i.toNat = (s.reg x).toNat % 16 * 5 ∧ OnlyChanges [.i] s t

/-- R123: three digits at `I`, `I+1`, `I+2`; `MemRange` when `I > 4093`, `WriteProtect` when `I < 80`, nothing written. -/
def Obligations.BcdStoresDigitsOrFaults : Prop :=
  ∀ (x : Nibble) (s : State), (Instr.ldB x).row = ⟨0xF033, 0xF0FF⟩ ∧
    (80 ≤ s.i.toNat → s.i.toNat ≤ 4093 → ∃ t, exec (.ldB x) s = .next t ∧
      (t.mem.readByte s.i.toNat).toNat = (s.reg x).toNat / 100 ∧
      (t.mem.readByte (s.i.toNat + 1)).toNat = (s.reg x).toNat / 10 % 10 ∧
      (t.mem.readByte (s.i.toNat + 2)).toNat = (s.reg x).toNat % 10 ∧
      BytesKeptBut s.i.toNat 3 s t ∧ OnlyChanges [.mem] s t) ∧
    (4093 < s.i.toNat → ∃ t, exec (.ldB x) s = .next t ∧ t.fault = .memRange ∧ OnlyChanges [.fault] s t) ∧
    (s.i.toNat < 80 → ∃ t, exec (.ldB x) s = .next t ∧ t.fault = .writeProtect ∧ OnlyChanges [.fault] s t)

/-- R125: `V[0]` to `V[x]` go to `I` and up, `I` is kept; `MemRange` or `WriteProtect` with nothing written. -/
def Obligations.BulkStoreOrFaults : Prop :=
  ∀ (x : Nibble) (s : State), (Instr.stRegs x).row = ⟨0xF055, 0xF0FF⟩ ∧
    (80 ≤ s.i.toNat → s.i.toNat + x.toNat ≤ 4095 → ∃ t, exec (.stRegs x) s = .next t ∧
      (∀ k : Nibble, k.toNat ≤ x.toNat → t.mem.readByte (s.i.toNat + k.toNat) = s.reg k) ∧
      BytesKeptBut s.i.toNat (x.toNat + 1) s t ∧ OnlyChanges [.mem] s t) ∧
    (4095 < s.i.toNat + x.toNat → ∃ t, exec (.stRegs x) s = .next t ∧ t.fault = .memRange ∧
      OnlyChanges [.fault] s t) ∧
    (s.i.toNat < 80 → ∃ t, exec (.stRegs x) s = .next t ∧ t.fault = .writeProtect ∧ OnlyChanges [.fault] s t)

/-- R126: `V[0]` to `V[x]` come from `I` and up, the registers above `x` and `I` are kept; `MemRange` with nothing
loaded. -/
def Obligations.BulkLoadOrFaults : Prop :=
  ∀ (x : Nibble) (s : State), (Instr.ldRegs x).row = ⟨0xF065, 0xF0FF⟩ ∧
    (s.i.toNat + x.toNat ≤ 4095 → ∃ t, exec (.ldRegs x) s = .next t ∧
      (∀ k : Nibble, k.toNat ≤ x.toNat → t.reg k = s.mem.readByte (s.i.toNat + k.toNat)) ∧
      (∀ k : Nibble, x.toNat < k.toNat → t.reg k = s.reg k) ∧ OnlyChanges [.v] s t) ∧
    (4095 < s.i.toNat + x.toNat → ∃ t, exec (.ldRegs x) s = .next t ∧ t.fault = .memRange ∧ OnlyChanges [.fault] s t)

/-- What a bulk store puts at the advanced `PC` is the word the next step executes: a store is seen by the very next
fetch (R53, R125). -/
def Obligations.StoredWordIsFetchedNext : Prop :=
  ∀ (x : Nibble) (s : State) (w : Word) (i : Instr), 1 ≤ x.toNat → 80 ≤ s.i.toNat → s.i.toNat + x.toNat ≤ 4095 →
    s.i = s.pc → s.pc.toNat % 2 = 0 → s.fault = .none → s.wait = false →
    w.toNat = 256 * (s.reg 0).toNat + (s.reg 1).toNat → decodeWord w = some i →
    ∃ t, exec (.stRegs x) s = .next t ∧ Machine.step t = exec i t.advance

/-! ## Display -/

/-- R130. -/
def Obligations.ClsClearsEveryPixel : Prop :=
  ∀ s : State, Instr.cls.row = ⟨0x00E0, 0xF0FF⟩ ∧
    ∃ t, exec .cls s = .next t ∧ (∀ r c, r < 32 → c < 64 → t.pixel r c = false) ∧ OnlyChanges [.disp] s t

/-- R131: sprite bit (`r`, `c`) is XORed onto pixel `((Vy + r) mod 32, (Vx + c) mod 64)`, every other pixel is kept, `VF`
is 1 exactly when a 1 bit met a lit pixel; `MemRange` with nothing drawn when the last sprite byte lies above 4095. -/
def Obligations.DrwXorsSpriteOrFaults : Prop :=
  ∀ (x y n : Nibble) (s : State), (Instr.drw x y n).row = ⟨0xD000, 0xF000⟩ ∧
    (n.toNat = 0 ∨ s.i.toNat + n.toNat ≤ 4096 → ∃ t, exec (.drw x y n) s = .next t ∧
      (∀ r c, r < n.toNat → c < 8 →
        t.pixel (((s.reg y).toNat + r) % 32) (((s.reg x).toNat + c) % 64) =
          (s.pixel (((s.reg y).toNat + r) % 32) (((s.reg x).toNat + c) % 64) ^^ s.spriteBitAt r c)) ∧
      (∀ r c, r < 32 → c < 64 →
        (∀ dr dc, dr < n.toNat → dc < 8 →
          ¬(r = ((s.reg y).toNat + dr) % 32 ∧ c = ((s.reg x).toNat + dc) % 64)) → t.pixel r c = s.pixel r c) ∧
      ((∃ r c, r < n.toNat ∧ c < 8 ∧ s.spriteBitAt r c = true ∧
        s.pixel (((s.reg y).toNat + r) % 32) (((s.reg x).toNat + c) % 64) = true) → (t.reg flagReg).toNat = 1) ∧
      ((¬∃ r c, r < n.toNat ∧ c < 8 ∧ s.spriteBitAt r c = true ∧
        s.pixel (((s.reg y).toNat + r) % 32) (((s.reg x).toNat + c) % 64) = true) → (t.reg flagReg).toNat = 0) ∧
      RegsKeptBut [flagReg] s t ∧ OnlyChanges [.disp, .v] s t) ∧
    (1 ≤ n.toNat → 4096 < s.i.toNat + n.toNat → ∃ t, exec (.drw x y n) s = .next t ∧ t.fault = .memRange ∧
      OnlyChanges [.fault] s t)

/-- By R131, drawing the same sprite at the same place again restores the display exactly (R132 (a)), and the second draw
sets `VF` to 1 if and only if a 1 bit of the sprite fell on a pixel that was 0 before the first draw. Where all those
pixels were 0, that is R132 (a)'s "at least one 1 bit"; where a 1 bit met a lit pixel R132 (a)'s sentence on `VF`, which
the spec marks derived, does not follow from R131 (log entry 12). -/
def Obligations.SecondDrawRestores : Prop :=
  ∀ (x y n : Nibble) (s t s' : State), n.toNat = 0 ∨ s.i.toNat + n.toNat ≤ 4096 → exec (.drw x y n) s = .next t →
    s'.disp = t.disp → s'.i = s.i → s'.mem = s.mem → s'.reg x = s.reg x → s'.reg y = s.reg y →
    ∃ u, exec (.drw x y n) s' = .next u ∧ u.disp = s.disp ∧
      ((u.reg flagReg).toNat = 1 ↔ ∃ r c, r < n.toNat ∧ c < 8 ∧ s.spriteBitAt r c = true ∧
        s.pixel (((s.reg y).toNat + r) % 32) (((s.reg x).toNat + c) % 64) = false)

/-! ## Timers, the random byte, keys -/

/-- R140, R141, R142. -/
def Obligations.TimerInstructions : Prop :=
  ∀ (x : Nibble) (s : State),
    ((Instr.ldVxDt x).row = ⟨0xF007, 0xF0FF⟩ ∧ (Instr.ldDtVx x).row = ⟨0xF015, 0xF0FF⟩ ∧
      (Instr.ldStVx x).row = ⟨0xF018, 0xF0FF⟩) ∧
    (∃ t, exec (.ldVxDt x) s = .next t ∧ t.reg x = s.dt ∧ RegsKeptBut [x] s t ∧ OnlyChanges [.v] s t) ∧
    (∃ t, exec (.ldDtVx x) s = .next t ∧ t.dt = s.reg x ∧ OnlyChanges [.dt] s t) ∧
    ∃ t, exec (.ldStVx x) s = .next t ∧ t.st = s.reg x ∧ OnlyChanges [.st] s t

/-- R143, R180: RND writes the random byte masked by `nn`, be it the byte a step event presents or the free value; one
value is consumed, and a bit where `nn` has 0 is 0. The event `step(rnd)`, where no latch gates it and its fetch succeeds,
executes the decoded instruction, whichever it is, with its byte on the `rnd` input, which is empty after the event; so
RND gets that very byte. The fields that carry the input, and the free value, are the model's choice (log entry 3). -/
def Obligations.RndMasksTheRandomByte : Prop :=
  (∀ (x : Nibble) (nn : Byte) (s : State), (Instr.rnd x nn).row = ⟨0xC000, 0xF000⟩ ∧
    ∃ t, exec (.rnd x nn) s = .next t ∧ (∀ b, s.rndIn = some b → t.reg x = b &&& nn) ∧
      (s.rndIn = none → t.reg x = Config.rnd s.draws &&& nn) ∧
      (∀ k, nn.getLsbD k = false → (t.reg x).getLsbD k = false) ∧ t.rndIn = none ∧ t.draws = s.draws + 1 ∧
      RegsKeptBut [x] s t ∧ OnlyChanges [.v, .rnd] s t) ∧
  (∀ (font : Font) (s : State) (b : Byte) (w : Word) (i : Instr), s.Runs → s.WordAtPc w → decodeWord w = some i →
    applyEvent font (.step b) s = mapNext (fun t => t.setRndIn none) (exec i (s.advance.setRndIn (some b)))) ∧
  ∀ (font : Font) (s : State) (b : Byte) (w : Word) (x : Nibble) (nn : Byte), s.Runs → s.WordAtPc w →
    decodeWord w = some (.rnd x nn) →
    ∃ t, applyEvent font (.step b) s = .next t ∧ t.reg x = b &&& nn ∧ t.pc.toNat = s.pc.toNat + 2 ∧
      RegsKeptBut [x] s t ∧ OnlyChanges [.v, .pc, .rnd] s t

/-- The random input reaches no instruction but RND: any other instruction does the same whatever the input is, and
leaves it and the count of consumed bytes alone (R143). -/
def Obligations.OnlyRndSeesTheRandomInput : Prop :=
  ∀ (i : Instr) (s : State) (b : Option Byte), (∀ x nn, i ≠ .rnd x nn) →
    exec i (s.setRndIn b) = mapNext (fun t => t.setRndIn b) (exec i s) ∧
    ∀ t, exec i s = .next t → t.rndIn = s.rndIn ∧ t.draws = s.draws

/-- R152, both halves: FX0A always suspends; `key_resolve(k)` completes it, and is ignored when the core does not wait. -/
def Obligations.KeyWaitBothHalves : Prop :=
  ∀ (font : Font) (x k : Nibble) (s : State), (Instr.ldVxK x).row = ⟨0xF00A, 0xF0FF⟩ ∧
    (∃ t, exec (.ldVxK x) s = .next t ∧ t.waitx = x ∧ t.wait = true ∧ OnlyChanges [.wait, .waitx] s t) ∧
    (s.wait = true → ∃ t, applyEvent font (.keyResolve k) s = .next t ∧ (t.reg s.waitx).toNat = k.toNat ∧ t.wait = false ∧
      RegsKeptBut [s.waitx] s t ∧ OnlyChanges [.v, .wait] s t) ∧
    (s.wait = false → applyEvent font (.keyResolve k) s = .next s)

/-- Whatever number of steps comes between FX0A and `key_resolve`, they do nothing: the key lands in `Vx`, and `PC` is
still the address of the next instruction (R80, R152). -/
def Obligations.KeyWaitOutlastsSteps : Prop :=
  ∀ (font : Font) (x k : Nibble) (s t : State) (bs : List Byte), exec (.ldVxK x) s = .next t →
    ∃ u, runEvents font (bs.map Event.step ++ [Event.keyResolve k]) t = .next u ∧ (u.reg x).toNat = k.toNat ∧
      u.wait = false ∧ RegsKeptBut [x] s u ∧ OnlyChanges [.v, .wait, .waitx, .rnd] s u

/-! ## Host events and outputs -/

/-- R170: each timer is decremented on its own and floored at 0, in every state; `frame` is pulsed by ticks alone (R179). -/
def Obligations.TickCountsBothTimersDown : Prop :=
  ∀ (font : Font) (s : State), (∃ t, applyEvent font .tick s = .next t ∧ t.dt.toNat = s.dt.toNat - 1 ∧
      t.st.toNat = s.st.toNat - 1 ∧ OnlyChanges [.dt, .st] s t) ∧ ∀ e, framePulse e = true ↔ e = .tick

/-- A timer set to `k` is 0 after `k` ticks and never passes below it (R170, R171). -/
def Obligations.TicksNeverPassZero : Prop :=
  ∀ (font : Font) (k : Nat) (s : State), ∃ t, runEvents font (List.replicate k .tick) s = .next t ∧
    t.dt.toNat = s.dt.toNat - k ∧ t.st.toNat = s.st.toNat - k ∧ OnlyChanges [.dt, .st] s t

/-- R181: all 16 flags are replaced, in every state, and no wait is resolved. -/
def Obligations.KeySetReplacesAllFlags : Prop :=
  ∀ (font : Font) (k16 : BitVec 16) (s : State), ∃ t, applyEvent font (.keySet k16) s = .next t ∧
    (∀ k, t.keys.getLsbD k = k16.getLsbD k) ∧ OnlyChanges [.keys] s t

/-- R190: after `reset(prog)` every piece of state has the stated value, whatever came before and whatever `FONT` is. -/
def Obligations.ResetEventSetsEverything : Prop :=
  ∀ (font : Font) (prog : List Byte) (s : State), prog.length ≤ 3584 → ∃ t, applyEvent font (.reset prog) s = .next t ∧
    (∀ k : Fin 80, t.mem.readByte k.val = font[k]) ∧
    (∀ j, j < prog.length → t.mem.readByte (512 + j) = prog.getD j 0) ∧
    (∀ a, 80 ≤ a → a < 512 ∨ 512 + prog.length ≤ a → t.mem.readByte a = 0) ∧
    (∀ x, t.reg x = 0) ∧ t.i = 0 ∧ t.pc.toNat = 512 ∧ t.sp = 0 ∧ (∀ k : Fin 16, t.stack[k] = 0) ∧ t.dt = 0 ∧ t.st = 0 ∧
    (∀ r c, r < 32 → c < 64 → t.pixel r c = false) ∧ (∀ k, t.keys.getLsbD k = false) ∧ t.wait = false ∧ t.waitx = 0 ∧
    t.fault = .none

/-- THE MODEL'S READING (log entry 6): a reset with more than 3584 bytes, which R191 says has no defined effect, is
refused, and only that. -/
def Obligations.OversizedResetRefused : Prop :=
  ∀ (font : Font) (prog : List Byte) (s : State),
    applyEvent font (.reset prog) s = .refused .oversizedProgram ↔ 3584 < prog.length

/-- The reset values of R30 in `State.reset`, which is what `reset` leaves with the empty program and the default `FONT`
(the model's choice of both: log entries 1 and 2). -/
def Obligations.ResetStateValues : Prop :=
  (∀ x, State.reset.reg x = 0) ∧ State.reset.i = 0 ∧ State.reset.pc.toNat = 512 ∧ State.reset.sp = 0 ∧
  (∀ k : Fin 16, State.reset.stack[k] = 0) ∧ State.reset.dt = 0 ∧ State.reset.st = 0 ∧
  (∀ k : Fin 80, State.reset.mem.readByte k.val = defaultFont[k]) ∧
  (∀ a, 80 ≤ a → State.reset.mem.readByte a = 0) ∧ State.reset.disp = 0 ∧ State.reset.keys = 0 ∧
  State.reset.wait = false ∧ State.reset.waitx = 0 ∧ State.reset.fault = .none ∧
  applyEvent defaultFont (.reset []) State.reset = .next State.reset

/-- R31: `tick`, `key_set` and `key_resolve` write only the state they own; none of them moves `PC` (R165). -/
def Obligations.EventsWriteOnlyTheirOwnState : Prop :=
  ∀ (font : Font) (e : Event) (s t : State), applyEvent font e s = .next t →
    (e = .tick → OnlyChanges [.dt, .st] s t) ∧ ((∃ k16, e = .keySet k16) → OnlyChanges [.keys] s t) ∧
    ((∃ k, e = .keyResolve k) → RegsKeptBut [s.waitx] s t ∧ OnlyChanges [.v, .wait] s t)

/-- R177, R178, R161: the level outputs are functions of the state, and the fault codes are those of the table. -/
def Obligations.LevelOutputs : Prop :=
  ∀ s : State, (s.soundOut = true ↔ s.st.toNat ≠ 0) ∧ (s.keyWaitOut = true ↔ s.wait = true) ∧
    s.faultOut.toNat = (match s.fault with
      | .none => 0 | .badFetch => 1 | .stackOverflow => 2 | .stackUnderflow => 3 | .memRange => 4 | .writeProtect => 5)

/-! ## Rules over the whole machine -/

/-- R31, R48: in any state whatever, a step writes neither `KEYS` nor the font cells. -/
def Obligations.StepNeverWritesKeysOrFont : Prop :=
  ∀ s t : State, Machine.step s = .next t → t.keys = s.keys ∧ ∀ a, a < 80 → t.mem.readByte a = s.mem.readByte a

/-- R18, R19, R88: no instruction but LD DT, Vx changes `DT`, and none but LD ST, Vx changes `ST`. -/
def Obligations.OnlyTheirInstructionsChangeTimers : Prop :=
  ∀ (i : Instr) (s t : State), exec i s = .next t →
    ((∀ x, i ≠ .ldDtVx x) → t.dt = s.dt) ∧ ((∀ x, i ≠ .ldStVx x) → t.st = s.st)

/-- R12 and the destination fields: a register that an instruction's form does not write keeps its value; in particular
`VF` is written by the six of R12 and by instructions that name it as destination, and by no other. -/
def Obligations.RegistersWrittenByFormOnly : Prop :=
  ∀ (i : Instr) (s t : State) (r : Nibble), exec i s = .next t → mayWriteReg i r = false → t.reg r = s.reg r

/-- R85, R162: an instruction that takes a fault changes nothing but `FAULT`: all its checks come before its first write. -/
def Obligations.FaultsArePrecise : Prop :=
  ∀ (i : Instr) (s t : State), s.fault = .none → exec i s = .next t → t.fault ≠ .none →
    OnlyChanges [.fault] s t ∧ t.fault ≠ .badFetch

/-- R161: an instruction latches exactly the fault the table gives it, and no other instruction or condition faults. -/
def Obligations.FaultTableExactly : Prop :=
  ∀ (i : Instr) (s t : State), s.fault = .none → exec i s = .next t → t.fault = executionFault i s

/-- R26, R164: only `reset` changes a latched fault, and a halted step event writes nothing (but the `rnd` input). -/
def Obligations.FaultIsSticky : Prop :=
  ∀ (font : Font) (e : Event) (s t : State), s.fault ≠ .none → applyEvent font e s = .next t → (∀ prog, e ≠ .reset prog) →
    t.fault = s.fault ∧ ((∃ b, e = .step b) → OnlyChanges [.rnd] s t)

/-- THE MODEL'S OWN FORM (log entry 1, DESIGN CHOICE): every step keeps memory in the canonical form in which the model
writes it down, from any state that has it. No rule of the spec speaks of that form. -/
def Obligations.MemoryStaysCanonical : Prop :=
  ∀ s t : State, s.mem.wf → Machine.step s = .next t → t.mem.wf

/-! ## The legal states (R28, R15, R48, R164) -/

/-- A reset leaves a legal state, whatever came before and whatever `FONT` is; so does `State.reset`, whose `FONT` is the
default (log entry 2). -/
def Obligations.ResetIsLegal : Prop :=
  Legal defaultFont State.reset ∧ ∀ (font : Font) (prog : List Byte) (s : State), prog.length ≤ 3584 →
    ∃ t, applyEvent font (.reset prog) s = .next t ∧ Legal font t

/-- Every step keeps a legal state legal: `SP` in [0, 16], `PC` at most 4350, live return addresses even and at most
4096, the font cells at `FONT`, never suspended and halted at once, and memory in the model's own canonical form (log
entry 1). -/
def Obligations.LegalKeptByStep : Prop :=
  ∀ (font : Font) (s t : State), Legal font s → Machine.step s = .next t → Legal font t

/-- From a legal state a step always answers a next state (the model never stops there), and it is safe exactly when no
fault is latched already, the fetch succeeds, and the decoded instruction has no fault of R161. -/
def Obligations.LegalStepAlwaysAnswers : Prop :=
  ∀ (font : Font) (s : State) (w : Word), Legal font s → s.WordAtPc w →
    (∃ t, Machine.step s = .next t) ∧
    (SafeStep s ↔ s.fault = .none ∧ (s.wait = true ∨
      s.pc.toNat % 2 = 0 ∧ s.pc.toNat ≤ 4094 ∧ ∀ i, decodeWord w = some i → executionFault i s = .none))

/-- From a legal state any sequence of host events whose resets deliver programs of a legal length runs to its end, and
ends in a legal state (R180; for the form of memory, log entry 1). -/
def Obligations.LegalKeptByEvents : Prop :=
  ∀ (font : Font) (es : List Event) (s : State), Legal font s →
    (∀ prog, Event.reset prog ∈ es → prog.length ≤ 3584) → ∃ t, runEvents font es s = .next t ∧ Legal font t
end

