-- ==== Sys2Proof/Laws/State.lean ====
section
/-! SUPPORT. One lemma per field per named update of the state, so that no later proof unfolds a record update. -/

namespace Sys2Proof.Machine

/-! ## setReg -/

@[simp] theorem State.setReg_v (s : State) (x : Nibble) (b : Byte) : (s.setReg x b).v = s.v.set x.toNat b x.isLt := rfl
@[simp] theorem State.setReg_i (s : State) (x : Nibble) (b : Byte) : (s.setReg x b).i = s.i := rfl
@[simp] theorem State.setReg_pc (s : State) (x : Nibble) (b : Byte) : (s.setReg x b).pc = s.pc := rfl
@[simp] theorem State.setReg_sp (s : State) (x : Nibble) (b : Byte) : (s.setReg x b).sp = s.sp := rfl
@[simp] theorem State.setReg_stack (s : State) (x : Nibble) (b : Byte) : (s.setReg x b).stack = s.stack := rfl
@[simp] theorem State.setReg_dt (s : State) (x : Nibble) (b : Byte) : (s.setReg x b).dt = s.dt := rfl
@[simp] theorem State.setReg_st (s : State) (x : Nibble) (b : Byte) : (s.setReg x b).st = s.st := rfl
@[simp] theorem State.setReg_mem (s : State) (x : Nibble) (b : Byte) : (s.setReg x b).mem = s.mem := rfl
@[simp] theorem State.setReg_disp (s : State) (x : Nibble) (b : Byte) : (s.setReg x b).disp = s.disp := rfl
@[simp] theorem State.setReg_keys (s : State) (x : Nibble) (b : Byte) : (s.setReg x b).keys = s.keys := rfl
@[simp] theorem State.setReg_wait (s : State) (x : Nibble) (b : Byte) : (s.setReg x b).wait = s.wait := rfl
@[simp] theorem State.setReg_waitx (s : State) (x : Nibble) (b : Byte) : (s.setReg x b).waitx = s.waitx := rfl
@[simp] theorem State.setReg_fault (s : State) (x : Nibble) (b : Byte) : (s.setReg x b).fault = s.fault := rfl
@[simp] theorem State.setReg_rndIn (s : State) (x : Nibble) (b : Byte) : (s.setReg x b).rndIn = s.rndIn := rfl
@[simp] theorem State.setReg_draws (s : State) (x : Nibble) (b : Byte) : (s.setReg x b).draws = s.draws := rfl

/-! ## setI -/

@[simp] theorem State.setI_v (s : State) (w : Word) : (s.setI w).v = s.v := rfl
@[simp] theorem State.setI_i (s : State) (w : Word) : (s.setI w).i = w := rfl
@[simp] theorem State.setI_pc (s : State) (w : Word) : (s.setI w).pc = s.pc := rfl
@[simp] theorem State.setI_sp (s : State) (w : Word) : (s.setI w).sp = s.sp := rfl
@[simp] theorem State.setI_stack (s : State) (w : Word) : (s.setI w).stack = s.stack := rfl
@[simp] theorem State.setI_dt (s : State) (w : Word) : (s.setI w).dt = s.dt := rfl
@[simp] theorem State.setI_st (s : State) (w : Word) : (s.setI w).st = s.st := rfl
@[simp] theorem State.setI_mem (s : State) (w : Word) : (s.setI w).mem = s.mem := rfl
@[simp] theorem State.setI_disp (s : State) (w : Word) : (s.setI w).disp = s.disp := rfl
@[simp] theorem State.setI_keys (s : State) (w : Word) : (s.setI w).keys = s.keys := rfl
@[simp] theorem State.setI_wait (s : State) (w : Word) : (s.setI w).wait = s.wait := rfl
@[simp] theorem State.setI_waitx (s : State) (w : Word) : (s.setI w).waitx = s.waitx := rfl
@[simp] theorem State.setI_fault (s : State) (w : Word) : (s.setI w).fault = s.fault := rfl
@[simp] theorem State.setI_rndIn (s : State) (w : Word) : (s.setI w).rndIn = s.rndIn := rfl
@[simp] theorem State.setI_draws (s : State) (w : Word) : (s.setI w).draws = s.draws := rfl

/-! ## setPc -/

@[simp] theorem State.setPc_v (s : State) (w : Word) : (s.setPc w).v = s.v := rfl
@[simp] theorem State.setPc_i (s : State) (w : Word) : (s.setPc w).i = s.i := rfl
@[simp] theorem State.setPc_pc (s : State) (w : Word) : (s.setPc w).pc = w := rfl
@[simp] theorem State.setPc_sp (s : State) (w : Word) : (s.setPc w).sp = s.sp := rfl
@[simp] theorem State.setPc_stack (s : State) (w : Word) : (s.setPc w).stack = s.stack := rfl
@[simp] theorem State.setPc_dt (s : State) (w : Word) : (s.setPc w).dt = s.dt := rfl
@[simp] theorem State.setPc_st (s : State) (w : Word) : (s.setPc w).st = s.st := rfl
@[simp] theorem State.setPc_mem (s : State) (w : Word) : (s.setPc w).mem = s.mem := rfl
@[simp] theorem State.setPc_disp (s : State) (w : Word) : (s.setPc w).disp = s.disp := rfl
@[simp] theorem State.setPc_keys (s : State) (w : Word) : (s.setPc w).keys = s.keys := rfl
@[simp] theorem State.setPc_wait (s : State) (w : Word) : (s.setPc w).wait = s.wait := rfl
@[simp] theorem State.setPc_waitx (s : State) (w : Word) : (s.setPc w).waitx = s.waitx := rfl
@[simp] theorem State.setPc_fault (s : State) (w : Word) : (s.setPc w).fault = s.fault := rfl
@[simp] theorem State.setPc_rndIn (s : State) (w : Word) : (s.setPc w).rndIn = s.rndIn := rfl
@[simp] theorem State.setPc_draws (s : State) (w : Word) : (s.setPc w).draws = s.draws := rfl

/-! ## advance -/

@[simp] theorem State.advance_v (s : State) : (s.advance).v = s.v := rfl
@[simp] theorem State.advance_i (s : State) : (s.advance).i = s.i := rfl
@[simp] theorem State.advance_pc (s : State) : (s.advance).pc = s.pc + 2#16 := rfl
@[simp] theorem State.advance_sp (s : State) : (s.advance).sp = s.sp := rfl
@[simp] theorem State.advance_stack (s : State) : (s.advance).stack = s.stack := rfl
@[simp] theorem State.advance_dt (s : State) : (s.advance).dt = s.dt := rfl
@[simp] theorem State.advance_st (s : State) : (s.advance).st = s.st := rfl
@[simp] theorem State.advance_mem (s : State) : (s.advance).mem = s.mem := rfl
@[simp] theorem State.advance_disp (s : State) : (s.advance).disp = s.disp := rfl
@[simp] theorem State.advance_keys (s : State) : (s.advance).keys = s.keys := rfl
@[simp] theorem State.advance_wait (s : State) : (s.advance).wait = s.wait := rfl
@[simp] theorem State.advance_waitx (s : State) : (s.advance).waitx = s.waitx := rfl
@[simp] theorem State.advance_fault (s : State) : (s.advance).fault = s.fault := rfl
@[simp] theorem State.advance_rndIn (s : State) : (s.advance).rndIn = s.rndIn := rfl
@[simp] theorem State.advance_draws (s : State) : (s.advance).draws = s.draws := rfl

/-! ## setDt -/

@[simp] theorem State.setDt_v (s : State) (b : Byte) : (s.setDt b).v = s.v := rfl
@[simp] theorem State.setDt_i (s : State) (b : Byte) : (s.setDt b).i = s.i := rfl
@[simp] theorem State.setDt_pc (s : State) (b : Byte) : (s.setDt b).pc = s.pc := rfl
@[simp] theorem State.setDt_sp (s : State) (b : Byte) : (s.setDt b).sp = s.sp := rfl
@[simp] theorem State.setDt_stack (s : State) (b : Byte) : (s.setDt b).stack = s.stack := rfl
@[simp] theorem State.setDt_dt (s : State) (b : Byte) : (s.setDt b).dt = b := rfl
@[simp] theorem State.setDt_st (s : State) (b : Byte) : (s.setDt b).st = s.st := rfl
@[simp] theorem State.setDt_mem (s : State) (b : Byte) : (s.setDt b).mem = s.mem := rfl
@[simp] theorem State.setDt_disp (s : State) (b : Byte) : (s.setDt b).disp = s.disp := rfl
@[simp] theorem State.setDt_keys (s : State) (b : Byte) : (s.setDt b).keys = s.keys := rfl
@[simp] theorem State.setDt_wait (s : State) (b : Byte) : (s.setDt b).wait = s.wait := rfl
@[simp] theorem State.setDt_waitx (s : State) (b : Byte) : (s.setDt b).waitx = s.waitx := rfl
@[simp] theorem State.setDt_fault (s : State) (b : Byte) : (s.setDt b).fault = s.fault := rfl
@[simp] theorem State.setDt_rndIn (s : State) (b : Byte) : (s.setDt b).rndIn = s.rndIn := rfl
@[simp] theorem State.setDt_draws (s : State) (b : Byte) : (s.setDt b).draws = s.draws := rfl

/-! ## setSt -/

@[simp] theorem State.setSt_v (s : State) (b : Byte) : (s.setSt b).v = s.v := rfl
@[simp] theorem State.setSt_i (s : State) (b : Byte) : (s.setSt b).i = s.i := rfl
@[simp] theorem State.setSt_pc (s : State) (b : Byte) : (s.setSt b).pc = s.pc := rfl
@[simp] theorem State.setSt_sp (s : State) (b : Byte) : (s.setSt b).sp = s.sp := rfl
@[simp] theorem State.setSt_stack (s : State) (b : Byte) : (s.setSt b).stack = s.stack := rfl
@[simp] theorem State.setSt_dt (s : State) (b : Byte) : (s.setSt b).dt = s.dt := rfl
@[simp] theorem State.setSt_st (s : State) (b : Byte) : (s.setSt b).st = b := rfl
@[simp] theorem State.setSt_mem (s : State) (b : Byte) : (s.setSt b).mem = s.mem := rfl
@[simp] theorem State.setSt_disp (s : State) (b : Byte) : (s.setSt b).disp = s.disp := rfl
@[simp] theorem State.setSt_keys (s : State) (b : Byte) : (s.setSt b).keys = s.keys := rfl
@[simp] theorem State.setSt_wait (s : State) (b : Byte) : (s.setSt b).wait = s.wait := rfl
@[simp] theorem State.setSt_waitx (s : State) (b : Byte) : (s.setSt b).waitx = s.waitx := rfl
@[simp] theorem State.setSt_fault (s : State) (b : Byte) : (s.setSt b).fault = s.fault := rfl
@[simp] theorem State.setSt_rndIn (s : State) (b : Byte) : (s.setSt b).rndIn = s.rndIn := rfl
@[simp] theorem State.setSt_draws (s : State) (b : Byte) : (s.setSt b).draws = s.draws := rfl

/-! ## setMem -/

@[simp] theorem State.setMem_v (s : State) (m : Memory) : (s.setMem m).v = s.v := rfl
@[simp] theorem State.setMem_i (s : State) (m : Memory) : (s.setMem m).i = s.i := rfl
@[simp] theorem State.setMem_pc (s : State) (m : Memory) : (s.setMem m).pc = s.pc := rfl
@[simp] theorem State.setMem_sp (s : State) (m : Memory) : (s.setMem m).sp = s.sp := rfl
@[simp] theorem State.setMem_stack (s : State) (m : Memory) : (s.setMem m).stack = s.stack := rfl
@[simp] theorem State.setMem_dt (s : State) (m : Memory) : (s.setMem m).dt = s.dt := rfl
@[simp] theorem State.setMem_st (s : State) (m : Memory) : (s.setMem m).st = s.st := rfl
@[simp] theorem State.setMem_mem (s : State) (m : Memory) : (s.setMem m).mem = m := rfl
@[simp] theorem State.setMem_disp (s : State) (m : Memory) : (s.setMem m).disp = s.disp := rfl
@[simp] theorem State.setMem_keys (s : State) (m : Memory) : (s.setMem m).keys = s.keys := rfl
@[simp] theorem State.setMem_wait (s : State) (m : Memory) : (s.setMem m).wait = s.wait := rfl
@[simp] theorem State.setMem_waitx (s : State) (m : Memory) : (s.setMem m).waitx = s.waitx := rfl
@[simp] theorem State.setMem_fault (s : State) (m : Memory) : (s.setMem m).fault = s.fault := rfl
@[simp] theorem State.setMem_rndIn (s : State) (m : Memory) : (s.setMem m).rndIn = s.rndIn := rfl
@[simp] theorem State.setMem_draws (s : State) (m : Memory) : (s.setMem m).draws = s.draws := rfl

/-! ## setDisp -/

@[simp] theorem State.setDisp_v (s : State) (d : BitVec 2048) : (s.setDisp d).v = s.v := rfl
@[simp] theorem State.setDisp_i (s : State) (d : BitVec 2048) : (s.setDisp d).i = s.i := rfl
@[simp] theorem State.setDisp_pc (s : State) (d : BitVec 2048) : (s.setDisp d).pc = s.pc := rfl
@[simp] theorem State.setDisp_sp (s : State) (d : BitVec 2048) : (s.setDisp d).sp = s.sp := rfl
@[simp] theorem State.setDisp_stack (s : State) (d : BitVec 2048) : (s.setDisp d).stack = s.stack := rfl
@[simp] theorem State.setDisp_dt (s : State) (d : BitVec 2048) : (s.setDisp d).dt = s.dt := rfl
@[simp] theorem State.setDisp_st (s : State) (d : BitVec 2048) : (s.setDisp d).st = s.st := rfl
@[simp] theorem State.setDisp_mem (s : State) (d : BitVec 2048) : (s.setDisp d).mem = s.mem := rfl
@[simp] theorem State.setDisp_disp (s : State) (d : BitVec 2048) : (s.setDisp d).disp = d := rfl
@[simp] theorem State.setDisp_keys (s : State) (d : BitVec 2048) : (s.setDisp d).keys = s.keys := rfl
@[simp] theorem State.setDisp_wait (s : State) (d : BitVec 2048) : (s.setDisp d).wait = s.wait := rfl
@[simp] theorem State.setDisp_waitx (s : State) (d : BitVec 2048) : (s.setDisp d).waitx = s.waitx := rfl
@[simp] theorem State.setDisp_fault (s : State) (d : BitVec 2048) : (s.setDisp d).fault = s.fault := rfl
@[simp] theorem State.setDisp_rndIn (s : State) (d : BitVec 2048) : (s.setDisp d).rndIn = s.rndIn := rfl
@[simp] theorem State.setDisp_draws (s : State) (d : BitVec 2048) : (s.setDisp d).draws = s.draws := rfl

/-! ## setKeys -/

@[simp] theorem State.setKeys_v (s : State) (k : BitVec 16) : (s.setKeys k).v = s.v := rfl
@[simp] theorem State.setKeys_i (s : State) (k : BitVec 16) : (s.setKeys k).i = s.i := rfl
@[simp] theorem State.setKeys_pc (s : State) (k : BitVec 16) : (s.setKeys k).pc = s.pc := rfl
@[simp] theorem State.setKeys_sp (s : State) (k : BitVec 16) : (s.setKeys k).sp = s.sp := rfl
@[simp] theorem State.setKeys_stack (s : State) (k : BitVec 16) : (s.setKeys k).stack = s.stack := rfl
@[simp] theorem State.setKeys_dt (s : State) (k : BitVec 16) : (s.setKeys k).dt = s.dt := rfl
@[simp] theorem State.setKeys_st (s : State) (k : BitVec 16) : (s.setKeys k).st = s.st := rfl
@[simp] theorem State.setKeys_mem (s : State) (k : BitVec 16) : (s.setKeys k).mem = s.mem := rfl
@[simp] theorem State.setKeys_disp (s : State) (k : BitVec 16) : (s.setKeys k).disp = s.disp := rfl
@[simp] theorem State.setKeys_keys (s : State) (k : BitVec 16) : (s.setKeys k).keys = k := rfl
@[simp] theorem State.setKeys_wait (s : State) (k : BitVec 16) : (s.setKeys k).wait = s.wait := rfl
@[simp] theorem State.setKeys_waitx (s : State) (k : BitVec 16) : (s.setKeys k).waitx = s.waitx := rfl
@[simp] theorem State.setKeys_fault (s : State) (k : BitVec 16) : (s.setKeys k).fault = s.fault := rfl
@[simp] theorem State.setKeys_rndIn (s : State) (k : BitVec 16) : (s.setKeys k).rndIn = s.rndIn := rfl
@[simp] theorem State.setKeys_draws (s : State) (k : BitVec 16) : (s.setKeys k).draws = s.draws := rfl

/-! ## suspend -/

@[simp] theorem State.suspend_v (s : State) (x : Nibble) : (s.suspend x).v = s.v := rfl
@[simp] theorem State.suspend_i (s : State) (x : Nibble) : (s.suspend x).i = s.i := rfl
@[simp] theorem State.suspend_pc (s : State) (x : Nibble) : (s.suspend x).pc = s.pc := rfl
@[simp] theorem State.suspend_sp (s : State) (x : Nibble) : (s.suspend x).sp = s.sp := rfl
@[simp] theorem State.suspend_stack (s : State) (x : Nibble) : (s.suspend x).stack = s.stack := rfl
@[simp] theorem State.suspend_dt (s : State) (x : Nibble) : (s.suspend x).dt = s.dt := rfl
@[simp] theorem State.suspend_st (s : State) (x : Nibble) : (s.suspend x).st = s.st := rfl
@[simp] theorem State.suspend_mem (s : State) (x : Nibble) : (s.suspend x).mem = s.mem := rfl
@[simp] theorem State.suspend_disp (s : State) (x : Nibble) : (s.suspend x).disp = s.disp := rfl
@[simp] theorem State.suspend_keys (s : State) (x : Nibble) : (s.suspend x).keys = s.keys := rfl
@[simp] theorem State.suspend_wait (s : State) (x : Nibble) : (s.suspend x).wait = true := rfl
@[simp] theorem State.suspend_waitx (s : State) (x : Nibble) : (s.suspend x).waitx = x := rfl
@[simp] theorem State.suspend_fault (s : State) (x : Nibble) : (s.suspend x).fault = s.fault := rfl
@[simp] theorem State.suspend_rndIn (s : State) (x : Nibble) : (s.suspend x).rndIn = s.rndIn := rfl
@[simp] theorem State.suspend_draws (s : State) (x : Nibble) : (s.suspend x).draws = s.draws := rfl

/-! ## resume -/

@[simp] theorem State.resume_v (s : State) : (s.resume).v = s.v := rfl
@[simp] theorem State.resume_i (s : State) : (s.resume).i = s.i := rfl
@[simp] theorem State.resume_pc (s : State) : (s.resume).pc = s.pc := rfl
@[simp] theorem State.resume_sp (s : State) : (s.resume).sp = s.sp := rfl
@[simp] theorem State.resume_stack (s : State) : (s.resume).stack = s.stack := rfl
@[simp] theorem State.resume_dt (s : State) : (s.resume).dt = s.dt := rfl
@[simp] theorem State.resume_st (s : State) : (s.resume).st = s.st := rfl
@[simp] theorem State.resume_mem (s : State) : (s.resume).mem = s.mem := rfl
@[simp] theorem State.resume_disp (s : State) : (s.resume).disp = s.disp := rfl
@[simp] theorem State.resume_keys (s : State) : (s.resume).keys = s.keys := rfl
@[simp] theorem State.resume_wait (s : State) : (s.resume).wait = false := rfl
@[simp] theorem State.resume_waitx (s : State) : (s.resume).waitx = s.waitx := rfl
@[simp] theorem State.resume_fault (s : State) : (s.resume).fault = s.fault := rfl
@[simp] theorem State.resume_rndIn (s : State) : (s.resume).rndIn = s.rndIn := rfl
@[simp] theorem State.resume_draws (s : State) : (s.resume).draws = s.draws := rfl

/-! ## consumeRnd -/

@[simp] theorem State.consumeRnd_v (s : State) : (s.consumeRnd).v = s.v := rfl
@[simp] theorem State.consumeRnd_i (s : State) : (s.consumeRnd).i = s.i := rfl
@[simp] theorem State.consumeRnd_pc (s : State) : (s.consumeRnd).pc = s.pc := rfl
@[simp] theorem State.consumeRnd_sp (s : State) : (s.consumeRnd).sp = s.sp := rfl
@[simp] theorem State.consumeRnd_stack (s : State) : (s.consumeRnd).stack = s.stack := rfl
@[simp] theorem State.consumeRnd_dt (s : State) : (s.consumeRnd).dt = s.dt := rfl
@[simp] theorem State.consumeRnd_st (s : State) : (s.consumeRnd).st = s.st := rfl
@[simp] theorem State.consumeRnd_mem (s : State) : (s.consumeRnd).mem = s.mem := rfl
@[simp] theorem State.consumeRnd_disp (s : State) : (s.consumeRnd).disp = s.disp := rfl
@[simp] theorem State.consumeRnd_keys (s : State) : (s.consumeRnd).keys = s.keys := rfl
@[simp] theorem State.consumeRnd_wait (s : State) : (s.consumeRnd).wait = s.wait := rfl
@[simp] theorem State.consumeRnd_waitx (s : State) : (s.consumeRnd).waitx = s.waitx := rfl
@[simp] theorem State.consumeRnd_fault (s : State) : (s.consumeRnd).fault = s.fault := rfl
@[simp] theorem State.consumeRnd_rndIn (s : State) : (s.consumeRnd).rndIn = Option.none := rfl
@[simp] theorem State.consumeRnd_draws (s : State) : (s.consumeRnd).draws = s.draws + 1 := rfl

/-! ## setRndIn -/

@[simp] theorem State.setRndIn_v (s : State) (b : Option Byte) : (s.setRndIn b).v = s.v := rfl
@[simp] theorem State.setRndIn_i (s : State) (b : Option Byte) : (s.setRndIn b).i = s.i := rfl
@[simp] theorem State.setRndIn_pc (s : State) (b : Option Byte) : (s.setRndIn b).pc = s.pc := rfl
@[simp] theorem State.setRndIn_sp (s : State) (b : Option Byte) : (s.setRndIn b).sp = s.sp := rfl
@[simp] theorem State.setRndIn_stack (s : State) (b : Option Byte) : (s.setRndIn b).stack = s.stack := rfl
@[simp] theorem State.setRndIn_dt (s : State) (b : Option Byte) : (s.setRndIn b).dt = s.dt := rfl
@[simp] theorem State.setRndIn_st (s : State) (b : Option Byte) : (s.setRndIn b).st = s.st := rfl
@[simp] theorem State.setRndIn_mem (s : State) (b : Option Byte) : (s.setRndIn b).mem = s.mem := rfl
@[simp] theorem State.setRndIn_disp (s : State) (b : Option Byte) : (s.setRndIn b).disp = s.disp := rfl
@[simp] theorem State.setRndIn_keys (s : State) (b : Option Byte) : (s.setRndIn b).keys = s.keys := rfl
@[simp] theorem State.setRndIn_wait (s : State) (b : Option Byte) : (s.setRndIn b).wait = s.wait := rfl
@[simp] theorem State.setRndIn_waitx (s : State) (b : Option Byte) : (s.setRndIn b).waitx = s.waitx := rfl
@[simp] theorem State.setRndIn_fault (s : State) (b : Option Byte) : (s.setRndIn b).fault = s.fault := rfl
@[simp] theorem State.setRndIn_rndIn (s : State) (b : Option Byte) : (s.setRndIn b).rndIn = b := rfl
@[simp] theorem State.setRndIn_draws (s : State) (b : Option Byte) : (s.setRndIn b).draws = s.draws := rfl

/-! ## raise -/

@[simp] theorem State.raise_v (s : State) (c : FaultCode) : (s.raise c).v = s.v := rfl
@[simp] theorem State.raise_i (s : State) (c : FaultCode) : (s.raise c).i = s.i := rfl
@[simp] theorem State.raise_pc (s : State) (c : FaultCode) : (s.raise c).pc = s.pc := rfl
@[simp] theorem State.raise_sp (s : State) (c : FaultCode) : (s.raise c).sp = s.sp := rfl
@[simp] theorem State.raise_stack (s : State) (c : FaultCode) : (s.raise c).stack = s.stack := rfl
@[simp] theorem State.raise_dt (s : State) (c : FaultCode) : (s.raise c).dt = s.dt := rfl
@[simp] theorem State.raise_st (s : State) (c : FaultCode) : (s.raise c).st = s.st := rfl
@[simp] theorem State.raise_mem (s : State) (c : FaultCode) : (s.raise c).mem = s.mem := rfl
@[simp] theorem State.raise_disp (s : State) (c : FaultCode) : (s.raise c).disp = s.disp := rfl
@[simp] theorem State.raise_keys (s : State) (c : FaultCode) : (s.raise c).keys = s.keys := rfl
@[simp] theorem State.raise_wait (s : State) (c : FaultCode) : (s.raise c).wait = s.wait := rfl
@[simp] theorem State.raise_waitx (s : State) (c : FaultCode) : (s.raise c).waitx = s.waitx := rfl
@[simp] theorem State.raise_fault (s : State) (c : FaultCode) : (s.raise c).fault = c := rfl
@[simp] theorem State.raise_rndIn (s : State) (c : FaultCode) : (s.raise c).rndIn = s.rndIn := rfl
@[simp] theorem State.raise_draws (s : State) (c : FaultCode) : (s.raise c).draws = s.draws := rfl

/-! ## pushPc -/

@[simp] theorem State.pushPc_v (s : State) (h : s.sp.toNat < 16) : (s.pushPc h).v = s.v := rfl
@[simp] theorem State.pushPc_i (s : State) (h : s.sp.toNat < 16) : (s.pushPc h).i = s.i := rfl
@[simp] theorem State.pushPc_pc (s : State) (h : s.sp.toNat < 16) : (s.pushPc h).pc = s.pc := rfl
@[simp] theorem State.pushPc_sp (s : State) (h : s.sp.toNat < 16) : (s.pushPc h).sp = s.sp + 1#8 := rfl
@[simp] theorem State.pushPc_stack (s : State) (h : s.sp.toNat < 16) : (s.pushPc h).stack = s.stack.set s.sp.toNat s.pc h := rfl
@[simp] theorem State.pushPc_dt (s : State) (h : s.sp.toNat < 16) : (s.pushPc h).dt = s.dt := rfl
@[simp] theorem State.pushPc_st (s : State) (h : s.sp.toNat < 16) : (s.pushPc h).st = s.st := rfl
@[simp] theorem State.pushPc_mem (s : State) (h : s.sp.toNat < 16) : (s.pushPc h).mem = s.mem := rfl
@[simp] theorem State.pushPc_disp (s : State) (h : s.sp.toNat < 16) : (s.pushPc h).disp = s.disp := rfl
@[simp] theorem State.pushPc_keys (s : State) (h : s.sp.toNat < 16) : (s.pushPc h).keys = s.keys := rfl
@[simp] theorem State.pushPc_wait (s : State) (h : s.sp.toNat < 16) : (s.pushPc h).wait = s.wait := rfl
@[simp] theorem State.pushPc_waitx (s : State) (h : s.sp.toNat < 16) : (s.pushPc h).waitx = s.waitx := rfl
@[simp] theorem State.pushPc_fault (s : State) (h : s.sp.toNat < 16) : (s.pushPc h).fault = s.fault := rfl
@[simp] theorem State.pushPc_rndIn (s : State) (h : s.sp.toNat < 16) : (s.pushPc h).rndIn = s.rndIn := rfl
@[simp] theorem State.pushPc_draws (s : State) (h : s.sp.toNat < 16) : (s.pushPc h).draws = s.draws := rfl

/-! ## popPc -/

@[simp] theorem State.popPc_v (s : State) (h : (s.sp - 1#8).toNat < 16) : (s.popPc h).v = s.v := rfl
@[simp] theorem State.popPc_i (s : State) (h : (s.sp - 1#8).toNat < 16) : (s.popPc h).i = s.i := rfl
@[simp] theorem State.popPc_pc (s : State) (h : (s.sp - 1#8).toNat < 16) : (s.popPc h).pc = s.stack[(s.sp - 1#8).toNat]'h := rfl
@[simp] theorem State.popPc_sp (s : State) (h : (s.sp - 1#8).toNat < 16) : (s.popPc h).sp = s.sp - 1#8 := rfl
@[simp] theorem State.popPc_stack (s : State) (h : (s.sp - 1#8).toNat < 16) : (s.popPc h).stack = s.stack := rfl
@[simp] theorem State.popPc_dt (s : State) (h : (s.sp - 1#8).toNat < 16) : (s.popPc h).dt = s.dt := rfl
@[simp] theorem State.popPc_st (s : State) (h : (s.sp - 1#8).toNat < 16) : (s.popPc h).st = s.st := rfl
@[simp] theorem State.popPc_mem (s : State) (h : (s.sp - 1#8).toNat < 16) : (s.popPc h).mem = s.mem := rfl
@[simp] theorem State.popPc_disp (s : State) (h : (s.sp - 1#8).toNat < 16) : (s.popPc h).disp = s.disp := rfl
@[simp] theorem State.popPc_keys (s : State) (h : (s.sp - 1#8).toNat < 16) : (s.popPc h).keys = s.keys := rfl
@[simp] theorem State.popPc_wait (s : State) (h : (s.sp - 1#8).toNat < 16) : (s.popPc h).wait = s.wait := rfl
@[simp] theorem State.popPc_waitx (s : State) (h : (s.sp - 1#8).toNat < 16) : (s.popPc h).waitx = s.waitx := rfl
@[simp] theorem State.popPc_fault (s : State) (h : (s.sp - 1#8).toNat < 16) : (s.popPc h).fault = s.fault := rfl
@[simp] theorem State.popPc_rndIn (s : State) (h : (s.sp - 1#8).toNat < 16) : (s.popPc h).rndIn = s.rndIn := rfl
@[simp] theorem State.popPc_draws (s : State) (h : (s.sp - 1#8).toNat < 16) : (s.popPc h).draws = s.draws := rfl

/-! ## skipIf -/

@[simp] theorem State.skipIf_pc (s : State) (c : Bool) : (s.skipIf c).pc = if c then s.pc + 2#16 else s.pc := by
  cases c <;> rfl
@[simp] theorem State.skipIf_v (s : State) (c : Bool) : (s.skipIf c).v = s.v := by cases c <;> rfl
@[simp] theorem State.skipIf_i (s : State) (c : Bool) : (s.skipIf c).i = s.i := by cases c <;> rfl
@[simp] theorem State.skipIf_sp (s : State) (c : Bool) : (s.skipIf c).sp = s.sp := by cases c <;> rfl
@[simp] theorem State.skipIf_stack (s : State) (c : Bool) : (s.skipIf c).stack = s.stack := by cases c <;> rfl
@[simp] theorem State.skipIf_dt (s : State) (c : Bool) : (s.skipIf c).dt = s.dt := by cases c <;> rfl
@[simp] theorem State.skipIf_st (s : State) (c : Bool) : (s.skipIf c).st = s.st := by cases c <;> rfl
@[simp] theorem State.skipIf_mem (s : State) (c : Bool) : (s.skipIf c).mem = s.mem := by cases c <;> rfl
@[simp] theorem State.skipIf_disp (s : State) (c : Bool) : (s.skipIf c).disp = s.disp := by cases c <;> rfl
@[simp] theorem State.skipIf_keys (s : State) (c : Bool) : (s.skipIf c).keys = s.keys := by cases c <;> rfl
@[simp] theorem State.skipIf_wait (s : State) (c : Bool) : (s.skipIf c).wait = s.wait := by cases c <;> rfl
@[simp] theorem State.skipIf_waitx (s : State) (c : Bool) : (s.skipIf c).waitx = s.waitx := by cases c <;> rfl
@[simp] theorem State.skipIf_fault (s : State) (c : Bool) : (s.skipIf c).fault = s.fault := by cases c <;> rfl
@[simp] theorem State.skipIf_rndIn (s : State) (c : Bool) : (s.skipIf c).rndIn = s.rndIn := by cases c <;> rfl
@[simp] theorem State.skipIf_draws (s : State) (c : Bool) : (s.skipIf c).draws = s.draws := by cases c <;> rfl

/-! ## General registers read back -/

/-- A register write is seen by reads of that register only. -/
theorem State.reg_setReg (s : State) (x r : Nibble) (b : Byte) : (s.setReg x b).reg r = if r = x then b else s.reg r := by
  unfold State.reg State.setReg
  rw [Vector.getElem_set]
  simp only [BitVec.toNat_eq, eq_comm]

@[simp] theorem State.reg_setReg_same (s : State) (x : Nibble) (b : Byte) : (s.setReg x b).reg x = b := by
  simp [State.reg_setReg]

theorem State.reg_setReg_of_ne (s : State) (x r : Nibble) (b : Byte) (h : r ≠ x) : (s.setReg x b).reg r = s.reg r := by
  simp [State.reg_setReg, h]

/-- Two states whose register files agree read every register alike. -/
theorem State.reg_congr (s t : State) (h : t.v = s.v) (x : Nibble) : t.reg x = s.reg x := by
  unfold State.reg; simp [h]

@[simp] theorem State.setI_reg (s : State) (w : Word) (r : Nibble) : (s.setI w).reg r = s.reg r := rfl
@[simp] theorem State.setPc_reg (s : State) (w : Word) (r : Nibble) : (s.setPc w).reg r = s.reg r := rfl
@[simp] theorem State.advance_reg (s : State) (r : Nibble) : (s.advance).reg r = s.reg r := rfl
@[simp] theorem State.setDt_reg (s : State) (b : Byte) (r : Nibble) : (s.setDt b).reg r = s.reg r := rfl
@[simp] theorem State.setSt_reg (s : State) (b : Byte) (r : Nibble) : (s.setSt b).reg r = s.reg r := rfl
@[simp] theorem State.setMem_reg (s : State) (m : Memory) (r : Nibble) : (s.setMem m).reg r = s.reg r := rfl
@[simp] theorem State.setDisp_reg (s : State) (d : BitVec 2048) (r : Nibble) : (s.setDisp d).reg r = s.reg r := rfl
@[simp] theorem State.setKeys_reg (s : State) (k : BitVec 16) (r : Nibble) : (s.setKeys k).reg r = s.reg r := rfl
@[simp] theorem State.suspend_reg (s : State) (x : Nibble) (r : Nibble) : (s.suspend x).reg r = s.reg r := rfl
@[simp] theorem State.resume_reg (s : State) (r : Nibble) : (s.resume).reg r = s.reg r := rfl
@[simp] theorem State.consumeRnd_reg (s : State) (r : Nibble) : (s.consumeRnd).reg r = s.reg r := rfl
@[simp] theorem State.setRndIn_reg (s : State) (b : Option Byte) (r : Nibble) : (s.setRndIn b).reg r = s.reg r := rfl
@[simp] theorem State.raise_reg (s : State) (c : FaultCode) (r : Nibble) : (s.raise c).reg r = s.reg r := rfl
@[simp] theorem State.pushPc_reg (s : State) (h : s.sp.toNat < 16) (r : Nibble) : (s.pushPc h).reg r = s.reg r := rfl
@[simp] theorem State.popPc_reg (s : State) (h : (s.sp - 1#8).toNat < 16) (r : Nibble) : (s.popPc h).reg r = s.reg r := rfl
@[simp] theorem State.skipIf_reg (s : State) (c : Bool) (r : Nibble) : (s.skipIf c).reg r = s.reg r := by cases c <;> rfl

/-- Every register reads 0 at reset (R10, R30). -/
@[simp] theorem State.reset_reg (x : Nibble) : State.reset.reg x = 0#8 := by simp [State.reg, State.reset]

end Sys2Proof.Machine
end

