-- ==== Sys2Proof/Laws/Alu.lean ====
section
/-! SUPPORT. The ALU results and flags in unbounded arithmetic (spec/42_register_arithmetic.md R111), and what the two
write orders leave in the registers. -/

namespace Sys2Proof.Machine

/-! ## Results -/

/-- The sum modulo 256 (R101, R105). -/
@[simp] theorem toNat_sumLow (a b : Byte) : (sumLow a b).toNat = (a.toNat + b.toNat) % 256 := by
  simp [sumLow, exactSum]

/-- The difference modulo 256 (R106, R108). -/
@[simp] theorem toNat_diffLow (a b : Byte) : (diffLow a b).toNat = (256 + a.toNat - b.toNat) % 256 := by
  simp only [diffLow, exactDiff, BitVec.toNat_ofInt]
  have ha := a.isLt
  have hb := b.isLt
  omega

@[simp] theorem toNat_shiftRight1 (b : Byte) : (shiftRight1 b).toNat = b.toNat / 2 := by
  simp [shiftRight1, Nat.shiftRight_eq_div_pow]

@[simp] theorem toNat_shiftLeft1 (b : Byte) : (shiftLeft1 b).toNat = b.toNat * 2 % 256 := by
  simp [shiftLeft1, Nat.shiftLeft_eq]

@[simp] theorem toNat_zextAddr (nnn : Addr12) : (zextAddr nnn).toNat = nnn.toNat := by
  have := nnn.isLt
  simp [zextAddr, BitVec.toNat_setWidth]; omega

@[simp] theorem toNat_zextByte (b : Byte) : (zextByte b).toNat = b.toNat := by
  have := b.isLt
  simp [zextByte, BitVec.toNat_setWidth]; omega

/-- The low nibble as a number (R122, R150). -/
theorem toNat_lowNibble (b : Byte) : (b &&& 0x0F#8).toNat = b.toNat % 16 := by
  rw [BitVec.toNat_and]
  exact Nat.and_two_pow_sub_one_eq_mod b.toNat 4

@[simp] theorem toNat_keyOf (b : Byte) : (keyOf b).toNat = b.toNat % 16 := by
  unfold keyOf
  rw [BitVec.toNat_setWidth, toNat_lowNibble]
  omega

@[simp] theorem toNat_glyphAddr (b : Byte) : (glyphAddr b).toNat = b.toNat % 16 * 5 := by
  unfold glyphAddr
  rw [BitVec.toNat_mul, toNat_zextByte, toNat_lowNibble]
  simp only [BitVec.toNat_ofNat]
  omega

/-! ## Flags -/

@[simp] theorem toNat_flagByte (c : Bool) : (flagByte c).toNat = if c then 1 else 0 := by cases c <;> rfl

theorem toNat_carryFlag (a b : Byte) : (carryFlag a b).toNat = if a.toNat + b.toNat > 255 then 1 else 0 := by
  simp only [carryFlag, toNat_flagByte, decide_eq_true_eq, gt_iff_lt]; rfl

theorem toNat_noBorrowFlag (a b : Byte) : (noBorrowFlag a b).toNat = if b.toNat ≤ a.toNat then 1 else 0 := by
  simp only [noBorrowFlag, toNat_flagByte, decide_eq_true_eq, exactDiff, Int.sub_nonneg, Int.ofNat_le]

theorem toNat_bitOutRight (b : Byte) : (bitOutRight b).toNat = b.toNat % 2 := by
  simp only [bitOutRight, toNat_flagByte, BitVec.getLsbD, Nat.testBit_zero, decide_eq_true_eq]
  split <;> omega

theorem toNat_bitOutLeft (b : Byte) : (bitOutLeft b).toNat = b.toNat / 128 := by
  have hb := b.isLt
  simp only [bitOutLeft, toNat_flagByte, BitVec.getLsbD, Nat.testBit_eq_decide_div_mod_eq, decide_eq_true_eq]
  split <;> omega

/-! ## The two write orders -/

/-- The flag is written last (D15). -/
theorem State.reg_writeFlagLast (s : State) (x r : Nibble) (b f : Byte) :
    (s.writeFlagLast x b f).reg r = if r = flagReg then f else if r = x then b else s.reg r := by
  simp only [State.writeFlagLast, State.reg_setReg]

/-- The shift is applied last, to the current value (D12). -/
theorem State.reg_shiftFlagFirst (s : State) (x r : Nibble) (f : Byte) (g : Byte → Byte) :
    (s.shiftFlagFirst x f g).reg r =
      if r = x then g (if x = flagReg then f else s.reg x) else if r = flagReg then f else s.reg r := by
  simp only [State.shiftFlagFirst, State.reg_setReg]

/-- Both write orders leave everything but the register file alone. -/
theorem State.writeFlagLast_eq (s : State) (x : Nibble) (b f : Byte) :
    s.writeFlagLast x b f = { s with v := (s.writeFlagLast x b f).v } := rfl

theorem State.shiftFlagFirst_eq (s : State) (x : Nibble) (f : Byte) (g : Byte → Byte) :
    s.shiftFlagFirst x f g = { s with v := (s.shiftFlagFirst x f g).v } := rfl

/-! ## Bulk register moves -/

theorem ofNat4_eq_iff (r : Nibble) (k : Nat) (h : k < 16) : r = BitVec.ofNat 4 k ↔ r.toNat = k := by
  constructor
  · rintro rfl; simp; omega
  · rintro rfl; simp

theorem State.length_regsTo (s : State) (x : Nibble) : (s.regsTo x).length = x.toNat + 1 := by simp [State.regsTo]

/-- Entry `k` of the registers a bulk move names is `V[k]` (R125). -/
theorem State.getD_regsTo (s : State) (x : Nibble) (k : Nat) (h : k ≤ x.toNat) :
    (s.regsTo x).getD k 0#8 = s.reg (BitVec.ofNat 4 k) := by
  unfold State.regsTo
  rw [List.getD_eq_getElem?_getD, List.getElem?_map, List.getElem?_range (by omega)]
  rfl

/-- A bulk load of `n` registers, whatever the bytes come from. -/
theorem State.reg_foldl_setReg (f : Nat → Byte) (r : Nibble) : ∀ (n : Nat) (s : State), n ≤ 16 →
    ((List.range n).foldl (fun t k => t.setReg (BitVec.ofNat 4 k) (f k)) s).reg r =
      if r.toNat < n then f r.toNat else s.reg r := by
  intro n
  induction n with
  | zero => intro s _; simp
  | succ n ih =>
    intro s h
    rw [List.range_succ, List.foldl_append, List.foldl_cons, List.foldl_nil, State.reg_setReg, ih s (by omega)]
    simp only [ofNat4_eq_iff r n (by omega)]
    by_cases hr : r.toNat = n
    · rw [if_pos hr, if_pos (by omega), hr]
    · rw [if_neg hr]
      by_cases hl : r.toNat < n
      · rw [if_pos hl, if_pos (by omega)]
      · rw [if_neg hl, if_neg (by omega)]

/-- After a bulk load `V[r]` is `MEM[I + r]` up to `x`, and as before above it (R126). -/
theorem State.reg_loadRegs (s : State) (x r : Nibble) :
    (s.loadRegs x).reg r = if r.toNat ≤ x.toNat then s.dataByte r.toNat else s.reg r := by
  unfold State.loadRegs
  rw [State.reg_foldl_setReg _ _ _ _ (by have := x.isLt; omega)]
  simp only [Nat.lt_succ_iff]

/-- A fold of register writes changes the register file only. -/
theorem State.foldl_setReg_eq (f : Nat → Byte) (l : List Nat) : ∀ s : State,
    ∃ v, l.foldl (fun t k => t.setReg (BitVec.ofNat 4 k) (f k)) s = { s with v := v } := by
  induction l with
  | nil => intro s; exact ⟨s.v, rfl⟩
  | cons k l ih =>
    intro s
    obtain ⟨v, hv⟩ := ih (s.setReg (BitVec.ofNat 4 k) (f k))
    exact ⟨v, by rw [List.foldl_cons, hv]; rfl⟩

/-- A bulk load changes the register file only (R126: `I` is not changed). -/
theorem State.loadRegs_eq (s : State) (x : Nibble) : ∃ v, s.loadRegs x = { s with v := v } :=
  State.foldl_setReg_eq _ _ s

/-! ## Decimal digits -/

/-- The digits of LD B as numbers (R123). -/
theorem bcdDigits_toNat (b : Byte) :
    (bcdDigits b).map BitVec.toNat = [b.toNat / 100, b.toNat / 10 % 10, b.toNat % 10] := by
  simp [bcdDigits]

@[simp] theorem length_bcdDigits (b : Byte) : (bcdDigits b).length = 3 := rfl

end Sys2Proof.Machine
end

