-- ==== Sys2Proof/Laws/Decode.lean ====
section
/-! SUPPORT. Fields of assembled words, and what a row's mask says of the fields. -/

namespace Sys2Proof

/-- The operand types hold no ill-formed operand (R63). -/
@[simp] theorem Instr.wellFormed_all (i : Instr) : i.wellFormed = true := by
  cases i <;> simp [Instr.wellFormed] <;> omega

/-! ## Fields of the three word layouts -/

theorem extractLsb'_append_high {a b : Nat} (u : BitVec a) (v : BitVec b) : (u ++ v).extractLsb' b a = u := by
  ext i hi
  simp [BitVec.getElem_extractLsb', BitVec.getLsbD_append, BitVec.getLsbD_eq_getElem hi]

theorem extractLsb'_append_low {a b : Nat} (u : BitVec a) (v : BitVec b) (k n : Nat) (h : k + n ≤ b) :
    (u ++ v).extractLsb' k n = v.extractLsb' k n := by
  ext i hi
  simp only [BitVec.getElem_extractLsb', BitVec.getLsbD_append]
  rw [if_pos (by omega)]

theorem extractLsb'_whole {a : Nat} (u : BitVec a) : u.extractLsb' 0 a = u := by
  ext i hi
  simp

@[simp] theorem topNibble_formatA (o : Nibble) (nnn : Addr12) : topNibble (formatA o nnn) = o :=
  extractLsb'_append_high o nnn

@[simp] theorem fieldNNN_formatA (o : Nibble) (nnn : Addr12) : fieldNNN (formatA o nnn) = nnn :=
  (extractLsb'_append_low o nnn 0 12 (by omega)).trans (extractLsb'_whole nnn)

@[simp] theorem topNibble_formatXI (o x : Nibble) (nn : Byte) : topNibble (formatXI o x nn) = o :=
  extractLsb'_append_high o (x ++ nn)

@[simp] theorem fieldX_formatXI (o x : Nibble) (nn : Byte) : fieldX (formatXI o x nn) = x :=
  (extractLsb'_append_low o (x ++ nn) 8 4 (by omega)).trans (extractLsb'_append_high x nn)

@[simp] theorem fieldNN_formatXI (o x : Nibble) (nn : Byte) : fieldNN (formatXI o x nn) = nn :=
  (extractLsb'_append_low o (x ++ nn) 0 8 (by omega)).trans
    ((extractLsb'_append_low x nn 0 8 (by omega)).trans (extractLsb'_whole nn))

@[simp] theorem topNibble_formatXYN (o x y n : Nibble) : topNibble (formatXYN o x y n) = o :=
  extractLsb'_append_high o (x ++ (y ++ n))

@[simp] theorem fieldX_formatXYN (o x y n : Nibble) : fieldX (formatXYN o x y n) = x :=
  (extractLsb'_append_low o (x ++ (y ++ n)) 8 4 (by omega)).trans (extractLsb'_append_high x (y ++ n))

@[simp] theorem fieldY_formatXYN (o x y n : Nibble) : fieldY (formatXYN o x y n) = y :=
  (extractLsb'_append_low o (x ++ (y ++ n)) 4 4 (by omega)).trans
    ((extractLsb'_append_low x (y ++ n) 4 4 (by omega)).trans (extractLsb'_append_high y n))

@[simp] theorem fieldN_formatXYN (o x y n : Nibble) : fieldN (formatXYN o x y n) = n :=
  (extractLsb'_append_low o (x ++ (y ++ n)) 0 4 (by omega)).trans
    ((extractLsb'_append_low x (y ++ n) 0 4 (by omega)).trans
      ((extractLsb'_append_low y n 0 4 (by omega)).trans (extractLsb'_whole n)))

/-! ## Bits of assembled words -/

theorem getLsbD_formatA (o : Nibble) (nnn : Addr12) (i : Nat) :
    (formatA o nnn).getLsbD i = if i < 12 then nnn.getLsbD i else o.getLsbD (i - 12) :=
  BitVec.getLsbD_append

theorem getLsbD_formatXI (o x : Nibble) (nn : Byte) (i : Nat) : (formatXI o x nn).getLsbD i =
    if i < 12 then (if i < 8 then nn.getLsbD i else x.getLsbD (i - 8)) else o.getLsbD (i - 12) := by
  have h1 : (formatXI o x nn).getLsbD i = if i < 12 then (x ++ nn).getLsbD i else o.getLsbD (i - 12) :=
    BitVec.getLsbD_append
  rw [h1, BitVec.getLsbD_append]

theorem getLsbD_formatXYN (o x y n : Nibble) (i : Nat) : (formatXYN o x y n).getLsbD i =
    if i < 12 then (if i < 8 then (if i < 4 then n.getLsbD i else y.getLsbD (i - 4)) else x.getLsbD (i - 8))
    else o.getLsbD (i - 12) := by
  have h1 : formatXYN o x y n = formatXI o x (y ++ n) := rfl
  rw [h1, getLsbD_formatXI, BitVec.getLsbD_append]

theorem getLsbD_wordOfBytes (hi lo : Byte) (i : Nat) :
    (wordOfBytes hi lo).getLsbD i = if i < 8 then lo.getLsbD i else hi.getLsbD (i - 8) :=
  BitVec.getLsbD_append

/-! ## A word is its fields -/

/-- A word is its top nibble and its address field. -/
theorem formatA_fields (w : Word) : formatA (topNibble w) (fieldNNN w) = w := by
  apply BitVec.eq_of_getLsbD_eq; intro i hi
  rw [getLsbD_formatA]; interval_cases i <;> simp [topNibble, fieldNNN]

/-- A word is its top nibble, its register field and its low byte. -/
theorem formatXI_fields (w : Word) : formatXI (topNibble w) (fieldX w) (fieldNN w) = w := by
  apply BitVec.eq_of_getLsbD_eq; intro i hi
  rw [getLsbD_formatXI]; interval_cases i <;> simp [topNibble, fieldX, fieldNN]

/-- A word is its four nibbles. -/
theorem formatXYN_fields (w : Word) : formatXYN (topNibble w) (fieldX w) (fieldY w) (fieldN w) = w := by
  apply BitVec.eq_of_getLsbD_eq; intro i hi
  rw [getLsbD_formatXYN]; interval_cases i <;> simp [topNibble, fieldX, fieldY, fieldN]

/-- Fetched bytes put a stored word together again (R40, R41). -/
@[simp] theorem wordOfBytes_bytes (w : Word) : wordOfBytes (highByte w) (lowByte w) = w := by
  apply BitVec.eq_of_getLsbD_eq; intro i hi
  rw [getLsbD_wordOfBytes]; interval_cases i <;> simp [highByte, lowByte]

@[simp] theorem highByte_wordOfBytes (hi lo : Byte) : highByte (wordOfBytes hi lo) = hi :=
  extractLsb'_append_high hi lo

@[simp] theorem lowByte_wordOfBytes (hi lo : Byte) : lowByte (wordOfBytes hi lo) = lo :=
  (extractLsb'_append_low hi lo 0 8 (by omega)).trans (extractLsb'_whole lo)

theorem formatA_inj (o o' : Nibble) (a a' : Addr12) : formatA o a = formatA o' a' ↔ o = o' ∧ a = a' :=
  ⟨fun h => ⟨by simpa using congrArg topNibble h, by simpa using congrArg fieldNNN h⟩, by rintro ⟨rfl, rfl⟩; rfl⟩

theorem formatXI_inj (o o' x x' : Nibble) (b b' : Byte) :
    formatXI o x b = formatXI o' x' b' ↔ o = o' ∧ x = x' ∧ b = b' :=
  ⟨fun h => ⟨by simpa using congrArg topNibble h, by simpa using congrArg fieldX h,
    by simpa using congrArg fieldNN h⟩, by rintro ⟨rfl, rfl, rfl⟩; rfl⟩

theorem formatXYN_inj (o o' x x' y y' n n' : Nibble) :
    formatXYN o x y n = formatXYN o' x' y' n' ↔ o = o' ∧ x = x' ∧ y = y' ∧ n = n' :=
  ⟨fun h => ⟨by simpa using congrArg topNibble h, by simpa using congrArg fieldX h,
    by simpa using congrArg fieldY h, by simpa using congrArg fieldN h⟩, by rintro ⟨rfl, rfl, rfl, rfl⟩; rfl⟩

/-! ## Fields as numbers -/

theorem toNat_topNibble (w : Word) : (topNibble w).toNat = w.toNat / 4096 := by
  have := w.isLt
  simp [topNibble, BitVec.extractLsb'_toNat, Nat.shiftRight_eq_div_pow]; omega

theorem toNat_fieldN (w : Word) : (fieldN w).toNat = w.toNat % 16 := by simp [fieldN, BitVec.extractLsb'_toNat]

theorem toNat_fieldNN (w : Word) : (fieldNN w).toNat = w.toNat % 256 := by simp [fieldNN, BitVec.extractLsb'_toNat]

/-- The fetched word as a number (R40). -/
theorem toNat_wordOfBytes (hi lo : Byte) : (wordOfBytes hi lo).toNat = 256 * hi.toNat + lo.toNat := by
  have h : (wordOfBytes hi lo).toNat = (hi ++ lo).toNat := rfl
  rw [h, BitVec.toNat_append, ← Nat.shiftLeft_add_eq_or_of_lt (by simpa using lo.isLt), Nat.shiftLeft_eq]
  omega

/-- Decoding two bytes is decoding their word. -/
theorem decodeBytes_two (hi lo : Byte) (rest : List Byte) :
    decodeBytes (hi :: lo :: rest) = match decodeWord (wordOfBytes hi lo) with
      | some i => .ok (i, rest)
      | none => .error (.unknownWord (wordOfBytes hi lo)) := rfl

/-! ## A mask of R66 acts field by field -/

theorem formatA_and (o o' : Nibble) (a a' : Addr12) :
    formatA o a &&& formatA o' a' = formatA (o &&& o') (a &&& a') := by
  apply BitVec.eq_of_getLsbD_eq; intro i hi
  simp only [BitVec.getLsbD_and, getLsbD_formatA]
  split <;> rfl

theorem formatXI_and (o o' x x' : Nibble) (b b' : Byte) :
    formatXI o x b &&& formatXI o' x' b' = formatXI (o &&& o') (x &&& x') (b &&& b') := by
  apply BitVec.eq_of_getLsbD_eq; intro i hi
  simp only [BitVec.getLsbD_and, getLsbD_formatXI]
  split <;> [split; skip] <;> rfl

theorem formatXYN_and (o o' x x' y y' n n' : Nibble) :
    formatXYN o x y n &&& formatXYN o' x' y' n' = formatXYN (o &&& o') (x &&& x') (y &&& y') (n &&& n') := by
  apply BitVec.eq_of_getLsbD_eq; intro i hi
  simp only [BitVec.getLsbD_and, getLsbD_formatXYN]
  split <;> [split <;> [split; skip]; skip] <;> rfl

/-- Mask 0xF000 tests the top nibble. -/
theorem maskF000_iff (w : Word) (o : Nibble) : w &&& 0xF000#16 = formatA o 0#12 ↔ topNibble w = o := by
  conv_lhs => rw [← formatA_fields w, show (0xF000#16) = formatA (BitVec.allOnes 4) 0#12 from rfl, formatA_and,
    BitVec.and_allOnes, BitVec.and_zero, formatA_inj]
  simp

/-- Mask 0xF00F tests the top nibble and the low nibble. -/
theorem maskF00F_iff (w : Word) (o n : Nibble) :
    w &&& 0xF00F#16 = formatXYN o 0#4 0#4 n ↔ topNibble w = o ∧ fieldN w = n := by
  conv_lhs => rw [← formatXYN_fields w, show (0xF00F#16) = formatXYN (BitVec.allOnes 4) 0#4 0#4 (BitVec.allOnes 4) from rfl,
    formatXYN_and, BitVec.and_allOnes, BitVec.and_zero, BitVec.and_zero, BitVec.and_allOnes, formatXYN_inj]
  simp

/-- Mask 0xF0FF tests the top nibble and the low byte. -/
theorem maskF0FF_iff (w : Word) (o : Nibble) (b : Byte) :
    w &&& 0xF0FF#16 = formatXI o 0#4 b ↔ topNibble w = o ∧ fieldNN w = b := by
  conv_lhs => rw [← formatXI_fields w, show (0xF0FF#16) = formatXI (BitVec.allOnes 4) 0#4 (BitVec.allOnes 8) from rfl,
    formatXI_and, BitVec.and_allOnes, BitVec.and_zero, BitVec.and_allOnes, formatXI_inj]
  simp

end Sys2Proof
end

