-- ==== Sys2Proof/Laws/Memory.lean ====
section
/-! SUPPORT. Memory: read after write, and every operation keeps the canonical form. -/

namespace Sys2Proof.Machine

/-! ## Reads -/

@[simp] theorem Memory.readByte_nil (a : Nat) : Memory.readByte [] a = unlistedByte a := rfl

theorem Memory.readByte_cons (c : Host.Cell) (m : Memory) (a : Nat) :
    Memory.readByte (c :: m) a = if c.1 = a then c.2 else Memory.readByte m a := rfl

/-- An address with no entry reads as its reset contents. -/
theorem Memory.readByte_of_absent (m : Memory) (a : Nat) (h : ∀ c ∈ m, c.1 ≠ a) : m.readByte a = unlistedByte a := by
  induction m with
  | nil => rfl
  | cons c m ih =>
    rw [Memory.readByte_cons, if_neg (h c (by simp)), ih fun d hd => h d (by simp [hd])]

/-! ## Dropping and putting an entry -/

theorem Memory.readByte_dropCell (m : Memory) (a b : Nat) :
    (m.dropCell a).readByte b = if b = a then unlistedByte a else m.readByte b := by
  induction m with
  | nil => split <;> simp_all [Memory.dropCell]
  | cons c m ih =>
    unfold Memory.dropCell at ih ⊢
    rw [List.filter_cons]
    by_cases hc : c.1 = a
    · simp only [hc, bne_self_eq_false, Bool.false_eq_true, ↓reduceIte]
      rw [ih, Memory.readByte_cons, hc]
      by_cases hb : b = a
      · simp [hb]
      · simp [hb, Ne.symm hb]
    · rw [if_pos (by simpa using hc), Memory.readByte_cons, ih, Memory.readByte_cons]
      by_cases hb : b = a
      · subst hb; simp [hc]
      · simp [hb]

theorem Memory.mem_dropCell (m : Memory) (a : Nat) (c : Host.Cell) : c ∈ m.dropCell a ↔ c ∈ m ∧ c.1 ≠ a := by
  simp [Memory.dropCell]

theorem Memory.readByte_putCell (m : Memory) (a b : Nat) (v : Byte) (h : ∀ c ∈ m, c.1 ≠ a) :
    (Memory.putCell a v m).readByte b = if b = a then v else m.readByte b := by
  induction m with
  | nil =>
    by_cases hb : b = a
    · simp [Memory.putCell, Memory.readByte_cons, hb]
    · simp [Memory.putCell, Memory.readByte_cons, hb, Ne.symm hb]
  | cons c m ih =>
    have hc : c.1 ≠ a := h c (by simp)
    unfold Memory.putCell
    split
    · rw [Memory.readByte_cons]
      by_cases hb : b = a
      · simp [hb]
      · simp [hb, Ne.symm hb]
    · rw [Memory.readByte_cons, ih fun d hd => h d (by simp [hd]), Memory.readByte_cons]
      by_cases hb : b = a
      · subst hb; simp [hc]
      · simp [hb]

theorem Memory.mem_putCell (m : Memory) (a : Nat) (v : Byte) (c : Host.Cell) :
    c ∈ Memory.putCell a v m ↔ c = (a, v) ∨ c ∈ m := by
  induction m with
  | nil => simp [Memory.putCell]
  | cons d m ih =>
    unfold Memory.putCell
    split
    · simp
    · simp only [List.mem_cons, ih]; tauto

theorem Memory.pairwise_putCell (m : Memory) (a : Nat) (v : Byte) (hs : m.Pairwise fun c d => c.1 < d.1)
    (h : ∀ c ∈ m, c.1 ≠ a) : (Memory.putCell a v m).Pairwise fun c d => c.1 < d.1 := by
  induction m with
  | nil => simp [Memory.putCell]
  | cons d m ih =>
    rw [List.pairwise_cons] at hs
    have hd : d.1 ≠ a := h d (by simp)
    unfold Memory.putCell
    split
    · rename_i hlt
      refine List.pairwise_cons.2 ⟨fun c hc => ?_, List.pairwise_cons.2 hs⟩
      rcases List.mem_cons.1 hc with rfl | hc
      · exact hlt
      · exact lt_trans hlt (hs.1 c hc)
    · rename_i hlt
      refine List.pairwise_cons.2 ⟨fun c hc => ?_, ih hs.2 fun c hc => h c (by simp [hc])⟩
      rcases (Memory.mem_putCell m a v c).1 hc with rfl | hc
      · change d.1 < a; omega
      · exact hs.1 c hc

/-! ## The write -/

/-- A write is seen at its address and nowhere else; an address that does not exist takes no byte. -/
theorem Memory.readByte_writeByte (m : Memory) (a b : Nat) (v : Byte) :
    (m.writeByte a v).readByte b = if b = a ∧ a < 4096 then v else m.readByte b := by
  have hdrop : ∀ c ∈ m.dropCell a, c.1 ≠ a := fun c hc => ((Memory.mem_dropCell m a c).1 hc).2
  unfold Memory.writeByte Config.memSize
  by_cases ha : a < 4096
  · rw [if_pos ha]
    by_cases hv : v = unlistedByte a
    · rw [if_pos hv, Memory.readByte_dropCell]
      by_cases hb : b = a <;> simp [hb, ha, hv]
    · rw [if_neg hv, Memory.readByte_putCell _ _ _ _ hdrop, Memory.readByte_dropCell]
      by_cases hb : b = a <;> simp [hb, ha]
  · simp [ha]

theorem Memory.readByte_writeByte_same (m : Memory) (a : Nat) (v : Byte) (h : a < 4096) :
    (m.writeByte a v).readByte a = v := by
  simp [Memory.readByte_writeByte, h]

theorem Memory.readByte_writeByte_of_ne (m : Memory) (a b : Nat) (v : Byte) (h : b ≠ a) :
    (m.writeByte a v).readByte b = m.readByte b := by
  simp [Memory.readByte_writeByte, h]

theorem Memory.wf_writeByte (m : Memory) (a : Nat) (v : Byte) (h : m.wf) : (m.writeByte a v).wf := by
  obtain ⟨hs, hc⟩ := h
  have hdrop : ∀ c ∈ m.dropCell a, c.1 ≠ a := fun c hc => ((Memory.mem_dropCell m a c).1 hc).2
  have hds : (m.dropCell a).Pairwise fun c d => c.1 < d.1 := hs.filter _
  have hdc : ∀ c ∈ m.dropCell a, c.1 < Config.memSize ∧ c.2 ≠ unlistedByte c.1 :=
    fun c h => hc c ((Memory.mem_dropCell m a c).1 h).1
  unfold Memory.writeByte
  split
  · rename_i ha
    split
    · exact ⟨hds, hdc⟩
    · rename_i hv
      refine ⟨Memory.pairwise_putCell _ a v hds hdrop, fun c h => ?_⟩
      rcases (Memory.mem_putCell _ a v c).1 h with rfl | h
      · exact ⟨ha, hv⟩
      · exact hdc c h
  · exact ⟨hs, hc⟩

/-! ## Consecutive writes -/

/-- Consecutive writes are seen at their addresses, in order, and nowhere else. -/
theorem Memory.readByte_writeBytes (bs : List Byte) : ∀ (m : Memory) (a b : Nat), a + bs.length ≤ 4096 →
    (m.writeBytes a bs).readByte b = if a ≤ b ∧ b < a + bs.length then bs.getD (b - a) 0#8 else m.readByte b := by
  induction bs with
  | nil => intro m a b _; simp [Memory.writeBytes]
  | cons v bs ih =>
    intro m a b h
    simp only [List.length_cons] at h ⊢
    rw [Memory.writeBytes, ih _ _ _ (by omega), Memory.readByte_writeByte]
    by_cases hb : b = a
    · subst hb
      rw [if_neg (by omega), if_pos ⟨rfl, by omega⟩, if_pos (by omega)]; simp
    · rw [if_neg (show ¬(b = a ∧ a < 4096) by tauto)]
      by_cases hr : a + 1 ≤ b ∧ b < a + 1 + bs.length
      · rw [if_pos hr, if_pos (by omega), show b - a = (b - (a + 1)) + 1 by omega, List.getD_cons_succ]
      · rw [if_neg hr, if_neg (by omega)]

/-- Consecutive writes leave every byte below their first address alone. -/
theorem Memory.readByte_writeBytes_below (bs : List Byte) : ∀ (m : Memory) (a b : Nat), b < a →
    (m.writeBytes a bs).readByte b = m.readByte b := by
  induction bs with
  | nil => intro m a b _; rfl
  | cons v bs ih =>
    intro m a b h
    rw [Memory.writeBytes, ih _ _ _ (by omega), Memory.readByte_writeByte_of_ne _ _ _ _ (by omega)]

theorem Memory.wf_writeBytes (bs : List Byte) : ∀ (m : Memory) (a : Nat), m.wf → (m.writeBytes a bs).wf := by
  induction bs with
  | nil => intro m a h; exact h
  | cons v bs ih => intro m a h; exact ih _ _ (Memory.wf_writeByte m a v h)

@[simp] theorem Memory.wf_nil : Memory.wf [] := by simp [Memory.wf]

@[simp] theorem State.reset_mem_wf : State.reset.mem.wf := Memory.wf_nil

/-- Beyond the font an unlisted address reads 0 (R23). -/
theorem unlistedByte_of_ge (a : Nat) (h : 80 ≤ a) : unlistedByte a = 0#8 := by
  unfold unlistedByte
  rw [List.getD_eq_default]
  simpa [fontTable] using h

/-! ## Data access and faults -/

/-- The one shape a checked access can have: a fault is taken, or the instruction completes. -/
theorem State.faultOr_cases (s t : State) (f : Option FaultCode) (u : State) (h : s.faultOr f t = .next u) :
    (∃ c, f = some c ∧ u = s.raise c) ∨ (f = Option.none ∧ u = t) := by
  cases f with
  | none => exact .inr ⟨rfl, by simpa [State.faultOr] using h.symm⟩
  | some c => exact .inl ⟨c, rfl, by simpa [State.faultOr] using h.symm⟩

@[simp] theorem State.faultOr_none (s t : State) : s.faultOr Option.none t = .next t := rfl
@[simp] theorem State.faultOr_some (s t : State) (c : FaultCode) : s.faultOr (some c) t = .next (s.raise c) := rfl

theorem State.dataAddr_eq (s : State) (k : Nat) : s.dataAddr k = s.i.toNat + k := rfl

theorem State.outOfRange_iff (s : State) (count : Nat) :
    s.outOfRange count = true ↔ 1 ≤ count ∧ 4095 < s.i.toNat + (count - 1) := by
  unfold State.outOfRange; rw [decide_eq_true_iff]; unfold Config.memSize State.dataAddr; omega

theorem State.inFont_iff (s : State) : s.inFont = true ↔ s.i.toNat < 80 := by
  unfold State.inFont; rw [decide_eq_true_iff]; unfold Config.fontBytes State.dataAddr; omega

/-- A load faults exactly when its last byte lies above 4095 (R47). -/
theorem State.loadFault_eq (s : State) (count : Nat) :
    s.loadFault count = if 1 ≤ count ∧ 4095 < s.i.toNat + (count - 1) then some .memRange else Option.none := by
  unfold State.loadFault; simp only [State.outOfRange_iff]

/-- A store faults exactly when its last byte lies above 4095, or its first below 80 (R47, R48). -/
theorem State.storeFault_eq (s : State) (count : Nat) :
    s.storeFault count = if 1 ≤ count ∧ 4095 < s.i.toNat + (count - 1) then some .memRange
      else if s.i.toNat < 80 then some .writeProtect else Option.none := by
  unfold State.storeFault; simp only [State.outOfRange_iff, State.inFont_iff]

/-- A store that completes lies in the writable cells. -/
theorem State.storeFault_none (s : State) (count : Nat) (h : s.storeFault count = Option.none) (hc : 1 ≤ count) :
    80 ≤ s.i.toNat ∧ s.i.toNat + count ≤ 4096 := by
  rw [State.storeFault_eq] at h
  split at h
  · cases h
  · split at h
    · cases h
    · omega

end Sys2Proof.Machine
end

