-- ==== Sys2Proof/Laws/Display.lean ====
section
/-! SUPPORT. The display: what drawing does to each pixel and to the collision result (spec/44_display.md R131, R132). -/

namespace Sys2Proof.Machine

/-- Distinct pixels have distinct linear indexes (R20). -/
theorem pixelIndex_inj (r c r' c' : Nat) (hc : c < 64) (hc' : c' < 64) :
    pixelIndex r c = pixelIndex r' c' ↔ r = r' ∧ c = c' := by
  unfold pixelIndex; omega

/-- Two displays with the same pixels are equal. -/
theorem disp_ext (d e : BitVec 2048) (h : ∀ r c, r < 32 → c < 64 → pixelOf d r c = pixelOf e r c) : d = e := by
  apply BitVec.eq_of_getLsbD_eq; intro i hi
  have := h (i / 64) (i % 64) (by omega) (by omega)
  unfold pixelOf pixelIndex at this
  rwa [show 64 * (i / 64) + i % 64 = i by omega] at this

/-- A toggle turns its pixel over and leaves every other alone. -/
theorem pixelOf_togglePixel (d : BitVec 2048) (r c r' c' : Nat) (hr : r < 32) (hc : c < 64) (hc' : c' < 64) :
    pixelOf (togglePixel d r c) r' c' = (pixelOf d r' c' ^^ decide (r' = r ∧ c' = c)) := by
  unfold pixelOf togglePixel
  rw [BitVec.getLsbD_xor, BitVec.getLsbD_twoPow]
  have h1 : pixelIndex r c < 2048 := by unfold pixelIndex; omega
  have h2 : (pixelIndex r c = pixelIndex r' c') ↔ (r' = r ∧ c' = c) := by
    rw [pixelIndex_inj r c r' c' hc hc']; tauto
  simp only [h1, decide_true, Bool.true_and, h2]

/-- A pixel of the cleared display. -/
@[simp] theorem pixelOf_zero (r c : Nat) : pixelOf 0#2048 r c = false := by simp [pixelOf]

/-- One sprite bit: its pixel is XORed with it, and the collision result collects a 1-to-0 transition. -/
theorem drawBit_spec (row col : Nat) (bit : Bool) (k : BitVec 2048 × Bool) (hr : row < 32) (hc : col < 64) :
    (∀ r c, c < 64 → pixelOf (drawBit row col bit k).1 r c = (pixelOf k.1 r c ^^ (bit && decide (r = row ∧ c = col)))) ∧
    (drawBit row col bit k).2 = (k.2 || (bit && pixelOf k.1 row col)) := by
  cases bit
  · simp [drawBit]
  · refine ⟨fun r c hc' => ?_, by simp [drawBit]⟩
    simp only [drawBit, ↓reduceIte, Bool.true_and]
    exact pixelOf_togglePixel k.1 row col r c hr hc hc'

/-- Drawing bits at positions that no two bits share, whatever they are: each pixel is XORed with the bits that fall on
it, and the collision result tells whether a 1 bit fell on a lit pixel. -/
theorem foldl_drawBit_spec (pos : Nat → Nat × Nat) (bit : Nat → Bool) : ∀ (n : Nat) (k : BitVec 2048 × Bool),
    (∀ j, j < n → (pos j).1 < 32 ∧ (pos j).2 < 64) → (∀ i j, i < n → j < n → pos i = pos j → i = j) →
    (∀ r c, c < 64 → pixelOf ((List.range n).foldl (fun k j => drawBit (pos j).1 (pos j).2 (bit j) k) k).1 r c =
      (pixelOf k.1 r c ^^ decide (∃ j, j < n ∧ bit j = true ∧ pos j = (r, c)))) ∧
    (((List.range n).foldl (fun k j => drawBit (pos j).1 (pos j).2 (bit j) k) k).2 = true ↔
      k.2 = true ∨ ∃ j, j < n ∧ bit j = true ∧ pixelOf k.1 (pos j).1 (pos j).2 = true) := by
  intro n
  induction n with
  | zero => intro k _ _; simp
  | succ n ih =>
    intro k hp hi
    obtain ⟨ihp, ihc⟩ := ih k (fun j hj => hp j (by omega)) fun i j hi' hj => hi i j (by omega) (by omega)
    obtain ⟨hr, hc⟩ := hp n (by omega)
    have fresh : ∀ j, j < n → pos j ≠ pos n := fun j hj he => by
      have := hi j n (by omega) (by omega) he; omega
    rw [List.range_succ, List.foldl_append, List.foldl_cons, List.foldl_nil]
    generalize hg : (List.range n).foldl (fun k j => drawBit (pos j).1 (pos j).2 (bit j) k) k = g at ihp ihc ⊢
    obtain ⟨sp, sc⟩ := drawBit_spec (pos n).1 (pos n).2 (bit n) g hr hc
    have old : pixelOf g.1 (pos n).1 (pos n).2 = pixelOf k.1 (pos n).1 (pos n).2 := by
      rw [ihp _ _ hc, decide_eq_false, Bool.xor_false]
      rintro ⟨j, hj, -, he⟩
      exact fresh j hj he
    constructor
    · intro r c hc'
      rw [sp r c hc', ihp r c hc', Bool.xor_assoc]
      congr 1
      by_cases hn : (r, c) = pos n
      · have e1 : decide (∃ j, j < n ∧ bit j = true ∧ pos j = (r, c)) = false := by
          apply decide_eq_false
          rintro ⟨j, hj, -, he⟩
          exact fresh j hj (he.trans hn)
        have e2 : decide (r = (pos n).1 ∧ c = (pos n).2) = true := by rw [← hn]; simp
        rw [e1, e2, Bool.false_xor, Bool.and_true]
        apply Bool.eq_iff_iff.2
        rw [decide_eq_true_iff]
        constructor
        · intro hb; exact ⟨n, by omega, hb, hn.symm⟩
        · rintro ⟨j, hj, hb, he⟩
          rw [← hi j n hj (by omega) (he.trans hn)]; exact hb
      · have e2 : decide (r = (pos n).1 ∧ c = (pos n).2) = false := by
          apply decide_eq_false
          rintro ⟨rfl, rfl⟩
          exact hn rfl
        rw [e2, Bool.and_false, Bool.xor_false, decide_eq_decide]
        constructor
        · rintro ⟨j, hj, h⟩; exact ⟨j, by omega, h⟩
        · rintro ⟨j, hj, hb, he⟩
          refine ⟨j, ?_, hb, he⟩
          rcases Nat.lt_succ_iff_lt_or_eq.1 hj with h | rfl
          · exact h
          · exact absurd he.symm hn
    · rw [sc, Bool.or_eq_true, Bool.and_eq_true, ihc, old]
      constructor
      · rintro ((h | ⟨j, hj, h⟩) | h)
        · exact .inl h
        · exact .inr ⟨j, by omega, h⟩
        · exact .inr ⟨n, by omega, h⟩
      · rintro (h | ⟨j, hj, h⟩)
        · exact .inl (.inl h)
        · rcases Nat.lt_succ_iff_lt_or_eq.1 hj with hj | rfl
          · exact .inl (.inr ⟨j, hj, h⟩)
          · exact .inr h

/-- A fold over rows of a fold over eight columns is one fold over the sprite's bits. -/
theorem foldl_rows_eq {α : Type} (f : α → Nat → Nat → α) : ∀ (n : Nat) (k : α),
    (List.range n).foldl (fun k r => (List.range 8).foldl (fun k c => f k r c) k) k =
      (List.range (8 * n)).foldl (fun k j => f k (j / 8) (j % 8)) k := by
  intro n
  induction n with
  | zero => intro k; rfl
  | succ n ih =>
    intro k
    rw [List.range_succ (n := n), List.foldl_append, List.foldl_cons, List.foldl_nil, ih, Nat.mul_succ, List.range_add,
      List.foldl_append, List.foldl_map]
    apply List.foldl_ext
    intro b c hc
    have : c < 8 := List.mem_range.1 hc
    rw [show (8 * n + c) / 8 = n by omega, show (8 * n + c) % 8 = c by omega]

/-- Where bit `j` of a sprite lands (R132 (b)). -/
def spritePos (x0 y0 j : Nat) : Nat × Nat := ((y0 + j / 8) % 32, (x0 + j % 8) % 64)

/-- No pixel is touched twice: 8 columns are distinct modulo 64 and up to 32 rows modulo 32 (R131). -/
theorem spritePos_inj (x0 y0 n i j : Nat) (hn : n ≤ 32) (hi : i < 8 * n) (hj : j < 8 * n)
    (h : spritePos x0 y0 i = spritePos x0 y0 j) : i = j := by
  simp only [spritePos, Prod.mk.injEq] at h
  omega

/-- The bits that fall on a pixel, found from the pixel. -/
theorem spriteBit_iff (m : Memory) (a x0 y0 n r c : Nat) (hn : n ≤ 32) (hr : r < 32) (hc : c < 64) :
    spriteBit m a x0 y0 n r c = true ↔
      ∃ j, j < 8 * n ∧ (m.readByte (a + j / 8)).getLsbD (7 - j % 8) = true ∧ spritePos x0 y0 j = (r, c) := by
  simp only [spriteBit, Bool.and_eq_true, decide_eq_true_eq]
  constructor
  · rintro ⟨hdr, hdc, hb⟩
    refine ⟨8 * ((r + 32 - y0 % 32) % 32) + (c + 64 - x0 % 64) % 64, by omega, ?_, ?_⟩
    · rw [Nat.mul_add_div (by omega), Nat.mul_add_mod, Nat.div_eq_of_lt hdc, Nat.mod_eq_of_lt hdc, Nat.add_zero]
      exact hb
    · simp only [spritePos, Prod.mk.injEq]
      omega
  · rintro ⟨j, hj, hb, he⟩
    simp only [spritePos, Prod.mk.injEq] at he
    have e1 : (r + 32 - y0 % 32) % 32 = j / 8 := by omega
    have e2 : (c + 64 - x0 % 64) % 64 = j % 8 := by omega
    rw [e1, e2]
    exact ⟨by omega, by omega, hb⟩

/-- The pixel that sprite bit (`r`, `c`) lands on is covered by that bit (R131). -/
theorem spriteBit_at (m : Memory) (a x0 y0 n r c : Nat) (hr : r < n) (hn : n ≤ 32) (hc : c < 8) :
    spriteBit m a x0 y0 n ((y0 + r) % 32) ((x0 + c) % 64) = (m.readByte (a + r)).getLsbD (7 - c) := by
  have e1 : ((y0 + r) % 32 + 32 - y0 % 32) % 32 = r := by omega
  have e2 : ((x0 + c) % 64 + 64 - x0 % 64) % 64 = c := by omega
  simp [spriteBit, e1, e2, hr, hc]

/-- A pixel outside the footprint is covered by no bit (R131). -/
theorem spriteBit_outside (m : Memory) (a x0 y0 n r c : Nat) (hr : r < 32) (hc : c < 64)
    (h : ∀ dr dc, dr < n → dc < 8 → ¬(r = (y0 + dr) % 32 ∧ c = (x0 + dc) % 64)) :
    spriteBit m a x0 y0 n r c = false := by
  by_contra hb
  simp only [spriteBit, Bool.not_eq_false, Bool.and_eq_true, decide_eq_true_eq] at hb
  exact h _ _ hb.1 hb.2.1 (by omega)

/-- What DRW draws (R131): every pixel is XORed with the sprite bit that covers it, and the collision result is 1
exactly when a sprite 1 bit covers a pixel that was 1. -/
theorem drawSprite_spec (m : Memory) (a x0 y0 n : Nat) (d : BitVec 2048) (hn : n ≤ 32) :
    (∀ r c, r < 32 → c < 64 →
      pixelOf (drawSprite m a x0 y0 n d).1 r c = (pixelOf d r c ^^ spriteBit m a x0 y0 n r c)) ∧
    ((drawSprite m a x0 y0 n d).2 = true ↔
      ∃ r c, r < 32 ∧ c < 64 ∧ spriteBit m a x0 y0 n r c = true ∧ pixelOf d r c = true) := by
  have hfold : drawSprite m a x0 y0 n d = (List.range (8 * n)).foldl (fun k j =>
      drawBit (spritePos x0 y0 j).1 (spritePos x0 y0 j).2 ((m.readByte (a + j / 8)).getLsbD (7 - j % 8)) k) (d, false) :=
    foldl_rows_eq (fun k r c => drawBit ((y0 + r) % 32) ((x0 + c) % 64) ((m.readByte (a + r)).getLsbD (7 - c)) k) n _
  obtain ⟨hp, hcoll⟩ := foldl_drawBit_spec (spritePos x0 y0) (fun j => (m.readByte (a + j / 8)).getLsbD (7 - j % 8))
    (8 * n) (d, false) (fun j _ => ⟨Nat.mod_lt _ (by omega), Nat.mod_lt _ (by omega)⟩)
    fun i j hi hj he => spritePos_inj x0 y0 n i j hn hi hj he
  rw [hfold]
  constructor
  · intro r c hr hc
    rw [hp r c hc]
    congr 1
    rw [Bool.eq_iff_iff, decide_eq_true_iff, spriteBit_iff m a x0 y0 n r c hn hr hc]
  · rw [hcoll]
    constructor
    · rintro (h | ⟨j, hj, hb, hl⟩)
      · cases h
      · exact ⟨_, _, Nat.mod_lt _ (by omega), Nat.mod_lt _ (by omega),
          (spriteBit_iff m a x0 y0 n _ _ hn (Nat.mod_lt _ (by omega)) (Nat.mod_lt _ (by omega))).2 ⟨j, hj, hb, rfl⟩, hl⟩
    · rintro ⟨r, c, hr, hc, hb, hl⟩
      obtain ⟨j, hj, hb, he⟩ := (spriteBit_iff m a x0 y0 n r c hn hr hc).1 hb
      refine .inr ⟨j, hj, hb, ?_⟩
      rw [he]; exact hl

end Sys2Proof.Machine
end

