-- ==== Sys2Proof/Laws/Step.lean ====
section
/-! SUPPORT. Said once: every shape a completed instruction can have, and every way a step can go. -/

namespace Sys2Proof.Machine

/-! ## What an instruction can do -/

/-- The states an instruction run in `s` can leave. -/
inductive Effect (s : State) : State → Prop where
  /-- A register result, or nothing. -/
  | regs (v : Vector Byte 16) : Effect s { s with v := v }
  /-- LD I, ADD I, LD F. -/
  | index (w : Word) : Effect s (s.setI w)
  /-- JP, JP V0. -/
  | jump (w : Word) (h : w.toNat ≤ 4350) : Effect s (s.setPc w)
  /-- A skip whose condition holds. -/
  | skip : Effect s s.advance
  /-- CALL with a free slot. -/
  | push (h : s.sp.toNat < 16) (nnn : Addr12) : Effect s ((s.pushPc h).setPc (zextAddr nnn))
  /-- RET with a live entry. -/
  | pop (h0 : s.sp ≠ 0#8) (h : (s.sp - 1#8).toNat < 16) : Effect s (s.popPc h)
  /-- A store inside the writable cells. -/
  | store (bs : List Byte) (h0 : 80 ≤ s.i.toNat) (h1 : s.i.toNat + bs.length ≤ 4096) :
      Effect s (s.setMem (s.mem.writeBytes (s.dataAddr 0) bs))
  /-- CLS. -/
  | clear : Effect s (s.setDisp 0#2048)
  /-- DRW. -/
  | draw (d : BitVec 2048) (f : Byte) : Effect s ((s.setDisp d).setReg flagReg f)
  /-- LD DT, Vx. -/
  | delay (b : Byte) : Effect s (s.setDt b)
  /-- LD ST, Vx. -/
  | sound (b : Byte) : Effect s (s.setSt b)
  /-- RND. -/
  | random (x : Nibble) (b : Byte) : Effect s (s.consumeRnd.setReg x b)
  /-- LD Vx, K. -/
  | suspend (x : Nibble) : Effect s (s.suspend x)
  /-- One of the four faults of execution. -/
  | fault (c : FaultCode) (h0 : c ≠ .none) (h1 : c ≠ .badFetch) : Effect s (s.raise c)

theorem Effect.same (s : State) : Effect s s := Effect.regs s.v

theorem Effect.setReg (s : State) (x : Nibble) (b : Byte) : Effect s (s.setReg x b) := Effect.regs _

theorem Effect.skipIf (s : State) (c : Bool) : Effect s (s.skipIf c) := by
  cases c
  · exact Effect.same s
  · exact Effect.skip

/-- The faults a load can take. -/
theorem State.loadFault_some (s : State) (n : Nat) (c : FaultCode) (h : s.loadFault n = some c) : c = .memRange := by
  unfold State.loadFault at h
  split at h
  · exact (Option.some.inj h).symm
  · cases h

/-- The faults a store can take. -/
theorem State.storeFault_some (s : State) (n : Nat) (c : FaultCode) (h : s.storeFault n = some c) :
    c = .memRange ∨ c = .writeProtect := by
  unfold State.storeFault at h
  split at h
  · exact .inl (Option.some.inj h).symm
  · split at h
    · exact .inr (Option.some.inj h).symm
    · cases h

/-- A checked store of `bs` from `I`. -/
theorem Effect.checkedStore (s t : State) (bs : List Byte) (hb : 1 ≤ bs.length)
    (h : s.faultOr (s.storeFault bs.length) (s.setMem (s.mem.writeBytes (s.dataAddr 0) bs)) = .next t) : Effect s t := by
  rcases State.faultOr_cases s _ _ t h with ⟨c, hc, rfl⟩ | ⟨hf, rfl⟩
  · rcases State.storeFault_some s _ c hc with rfl | rfl <;> exact Effect.fault _ (by decide) (by decide)
  · obtain ⟨h0, h1⟩ := State.storeFault_none s _ hf hb
    exact Effect.store bs h0 h1

/-- A checked load that leaves `u`. -/
theorem Effect.checkedLoad (s t u : State) (n : Nat) (hu : Effect s u) (h : s.faultOr (s.loadFault n) u = .next t) :
    Effect s t := by
  rcases State.faultOr_cases s _ _ t h with ⟨c, hc, rfl⟩ | ⟨_, rfl⟩
  · rw [State.loadFault_some s _ c hc]; exact Effect.fault _ (by decide) (by decide)
  · exact hu

/-- Every next state of every instruction is one of these effects. -/
theorem exec_effect (i : Instr) (s t : State) (h : exec i s = .next t) : Effect s t := by
  cases i with
  | cls => cases h; exact Effect.clear
  | ret =>
    simp only [exec, execRet] at h
    split at h
    · cases h; exact Effect.fault _ (by decide) (by decide)
    · split at h
      · cases h; exact Effect.pop ‹_› ‹_›
      · cases h
  | jp nnn => cases h; exact Effect.jump _ (by have := nnn.isLt; simp; omega)
  | call nnn =>
    simp only [exec, execCall] at h
    split at h
    · cases h; exact Effect.fault _ (by decide) (by decide)
    · split at h
      · cases h; exact Effect.push ‹_› nnn
      · cases h
  | seImm x nn => cases h; exact Effect.skipIf s _
  | sneImm x nn => cases h; exact Effect.skipIf s _
  | seReg x y => cases h; exact Effect.skipIf s _
  | ldImm x nn => cases h; exact Effect.setReg s x _
  | addImm x nn => cases h; exact Effect.setReg s x _
  | ldReg x y => cases h; exact Effect.setReg s x _
  | or x y => cases h; exact Effect.setReg s x _
  | and x y => cases h; exact Effect.setReg s x _
  | xor x y => cases h; exact Effect.setReg s x _
  | addReg x y => cases h; exact Effect.regs _
  | sub x y => cases h; exact Effect.regs _
  | shr x y => cases h; exact Effect.regs _
  | subn x y => cases h; exact Effect.regs _
  | shl x y => cases h; exact Effect.regs _
  | sneReg x y => cases h; exact Effect.skipIf s _
  | ldI nnn => cases h; exact Effect.index _
  | jpV0 nnn =>
    cases h
    refine Effect.jump _ ?_
    have h1 := nnn.isLt
    have h2 := (s.reg 0#4).isLt
    rw [BitVec.toNat_add, toNat_zextAddr, toNat_zextByte]
    omega
  | rnd x nn => cases h; exact Effect.random x _
  | drw x y n => exact Effect.checkedLoad s t _ _ (Effect.draw _ _) h
  | skp x => cases h; exact Effect.skipIf s _
  | sknp x => cases h; exact Effect.skipIf s _
  | ldVxDt x => cases h; exact Effect.setReg s x _
  | ldVxK x => cases h; exact Effect.suspend x
  | ldDtVx x => cases h; exact Effect.delay _
  | ldStVx x => cases h; exact Effect.sound _
  | addI x => cases h; exact Effect.index _
  | ldF x => cases h; exact Effect.index _
  | ldB x => exact Effect.checkedStore s t (bcdDigits (s.reg x)) (by simp) h
  | stRegs x =>
    refine Effect.checkedStore s t (s.regsTo x) (by simp [State.length_regsTo]) ?_
    rw [State.length_regsTo]; exact h
  | ldRegs x =>
    refine Effect.checkedLoad s t _ _ ?_ h
    obtain ⟨v, hv⟩ := State.loadRegs_eq s x
    rw [hv]; exact Effect.regs v

/-! ## What a step can do -/

/-- The gating latches (R80). -/
theorem State.gated_iff (s : State) : s.gated = true ↔ s.fault ≠ .none ∨ s.wait = true := by
  simp [State.gated]

/-- The fetch check (R81). -/
theorem State.badFetch_iff (s : State) : s.badFetch = true ↔ s.pc.toNat % 2 = 1 ∨ 4094 < s.pc.toNat := by
  simp only [State.badFetch, Bool.or_eq_true, decide_eq_true_eq, BitVec.getLsbD, Nat.testBit_zero]

/-- A step executes exactly in the states that `Runs` describes. -/
theorem State.runs_iff (s : State) : s.Runs ↔ s.gated = false ∧ s.badFetch = false := by
  rw [← Bool.not_eq_true, ← Bool.not_eq_true, State.gated_iff, State.badFetch_iff]
  unfold State.Runs
  cases s.wait <;> simp

/-- The word at `PC` is the fetched word (R40). -/
theorem State.wordAtPc_iff (s : State) (w : Word) :
    s.WordAtPc w ↔ w = wordOfBytes (s.mem.readByte s.pc.toNat) (s.mem.readByte (s.pc.toNat + 1)) := by
  unfold State.WordAtPc
  rw [BitVec.toNat_eq, toNat_wordOfBytes]

/-- Where a fetch succeeds the advance does not wrap (R83). -/
theorem State.toNat_advance_pc (s : State) (h : s.pc.toNat ≤ 4094) : s.advance.pc.toNat = s.pc.toNat + 2 := by
  rw [State.advance_pc, BitVec.toNat_add, BitVec.toNat_ofNat]; omega

theorem step_of_gated (s : State) (h : s.gated = true) : step s = .next s := by simp [step, h]

theorem step_of_badFetch (s : State) (h : s.gated = false) (hb : s.badFetch = true) :
    step s = .next (s.raise .badFetch) := by simp [step, h, hb]

/-- A step that executes runs the decoded word, or UNKNOWN, in the state with `PC` advanced (R83 to R86). -/
theorem step_of_runs (s : State) (h : s.Runs) :
    step s = match decodeWord (wordOfBytes (s.mem.readByte s.pc.toNat) (s.mem.readByte (s.pc.toNat + 1))) with
      | some i => exec i s.advance
      | none => .next s.advance := by
  obtain ⟨hg, hb⟩ := (State.runs_iff s).1 h
  simp only [step, hg, hb, Bool.false_eq_true, ↓reduceIte, State.fetchBytes, decodeBytes_two]
  cases decodeWord (wordOfBytes (s.mem.readByte s.pc.toNat) (s.mem.readByte (s.pc.toNat + 1))) <;> rfl

/-- Every way a step can answer a next state. -/
theorem step_cases (s t : State) (h : step s = .next t) :
    (s.gated = true ∧ t = s) ∨ (s.gated = false ∧ s.badFetch = true ∧ t = s.raise .badFetch) ∨
      (s.Runs ∧ Effect s.advance t) := by
  cases hg : s.gated
  · cases hb : s.badFetch
    · have hr := (State.runs_iff s).2 ⟨hg, hb⟩
      refine .inr (.inr ⟨hr, ?_⟩)
      rw [step_of_runs s hr] at h
      split at h
      · exact exec_effect _ _ _ h
      · cases h; exact Effect.same _
    · rw [step_of_badFetch s hg hb] at h
      cases h; exact .inr (.inl ⟨rfl, rfl, rfl⟩)
  · rw [step_of_gated s hg] at h
    cases h; exact .inl ⟨rfl, rfl⟩

end Sys2Proof.Machine
end

