-- ==== Sys2Proof/Laws/Events.lean ====
section
/-! SUPPORT. What a reset leaves in memory, sequences of host events, and the step event. -/

namespace Sys2Proof.Machine

/-! ## Reset -/

theorem Memory.wf_afterReset (font : Font) (prog : List Byte) : (Memory.afterReset font prog).wf :=
  Memory.wf_writeBytes _ _ _ (Memory.wf_writeBytes _ _ _ Memory.wf_nil)

/-- What `MEM` reads as after a reset (R190): `FONT`, the program, and 0 elsewhere. -/
theorem Memory.readByte_afterReset (font : Font) (prog : List Byte) (h : prog.length ≤ 3584) (a : Nat) :
    (Memory.afterReset font prog).readByte a =
      if 512 ≤ a ∧ a < 512 + prog.length then prog.getD (a - 512) 0#8 else font.toList.getD a 0#8 := by
  have hl : font.toList.length = 80 := Vector.length_toList
  unfold Memory.afterReset Config.progBase
  rw [Memory.readByte_writeBytes _ _ _ _ (by omega), Memory.readByte_writeBytes _ _ _ _ (by omega)]
  split
  · rfl
  · split
    · rfl
    · rename_i hf
      rw [Memory.readByte_nil, unlistedByte_of_ge a (by omega), List.getD_eq_default]; omega

theorem Memory.readByte_afterReset_font (font : Font) (prog : List Byte) (h : prog.length ≤ 3584) (k : Fin 80) :
    (Memory.afterReset font prog).readByte k.val = font[k] := by
  rw [Memory.readByte_afterReset font prog h, if_neg (by omega)]
  simp [List.getD_eq_getElem?_getD]

/-- The default `FONT` is what unlisted cells read as, so nothing is listed. -/
theorem Memory.afterReset_default : Memory.afterReset defaultFont [] = [] := by decide +kernel

/-- `State.reset` is the reset with the default `FONT` and the empty program. -/
theorem State.afterReset_default : State.afterReset defaultFont [] State.reset = State.reset := by
  rw [State.afterReset, Memory.afterReset_default]; rfl

/-! ## Sequences -/

/-- A sequence of events in two parts. -/
theorem runEvents_append (font : Font) (es fs : List Event) (s : State) :
    runEvents font (es ++ fs) s = match runEvents font es s with
    | .next t => runEvents font fs t
    | .fault r => .fault r
    | .refused r => .refused r := by
  induction es generalizing s with
  | nil => rfl
  | cons e es ih =>
    simp only [List.cons_append, runEvents]
    cases applyEvent font e s <;> simp [ih]

/-! ## The step event -/

/-- The step event where an instruction executes (R80, R83, R180). -/
theorem stepEvent_of_runs (b : Byte) (s : State) (h : s.Runs) :
    stepEvent b s = mapNext (fun t => t.setRndIn Option.none)
      (match decodeWord (wordOfBytes (s.mem.readByte s.pc.toNat) (s.mem.readByte (s.pc.toNat + 1))) with
        | some i => exec i (s.advance.setRndIn (some b))
        | none => .next (s.advance.setRndIn (some b))) :=
  congrArg _ (step_of_runs (s.setRndIn (some b)) h)

/-- The step event where the fetch check fails (R81). -/
theorem stepEvent_of_badFetch (b : Byte) (s : State) (h : s.gated = false) (hb : s.badFetch = true) :
    stepEvent b s = .next ((s.raise .badFetch).setRndIn Option.none) := by
  unfold stepEvent
  rw [step_of_badFetch (s.setRndIn (some b)) h hb]; rfl

/-- Halted or suspended, a step event leaves no more than an empty `rnd` input (R80). -/
theorem stepEvent_of_gated (b : Byte) (s : State) (h : s.gated = true) :
    stepEvent b s = .next (s.setRndIn Option.none) := by
  unfold stepEvent
  rw [step_of_gated (s.setRndIn (some b)) h]; rfl

end Sys2Proof.Machine
end

