-- ==== Sys2Proof/Laws/PerInstr.lean ====
section
/-! SUPPORT. Per-instruction facts about the syntax: the canonical word of an instruction selects its row of
spec/30_encoding.md R66. -/

namespace Sys2Proof

/-- The instruction's row stands in R66, its canonical word has the row's fixed bits, and its ignored bits are 0. -/
def Laws.RowMatch.Statement (i : Instr) : Prop :=
  i.row ∈ opcodeTable ∧ encode i &&& i.row.mask = i.row.pattern ∧ encode i &&& i.careMask = encode i

/-- The bits a row fixes are among the bits the decoding depends on. -/
theorem careMask_and_rowMask (i : Instr) : i.careMask &&& i.row.mask = i.row.mask := by
  cases i <;> first
    | exact (by decide : 0xFFFF#16 &&& 0xF000#16 = 0xF000#16)
    | exact (by decide : 0xFFFF#16 &&& 0xF00F#16 = 0xF00F#16)
    | exact (by decide : 0xFFFF#16 &&& 0xF0FF#16 = 0xF0FF#16)
    | exact (by decide : 0xF0FF#16 &&& 0xF0FF#16 = 0xF0FF#16)
    | exact (by decide : 0xFFF0#16 &&& 0xF000#16 = 0xF000#16)

/-- Format `A` under mask 0xF000. -/
theorem rowMatch_A (o : Nibble) (nnn : Addr12) :
    formatA o nnn &&& 0xF000#16 = formatA o 0#12 ∧ formatA o nnn &&& 0xFFFF#16 = formatA o nnn :=
  ⟨(maskF000_iff _ _).2 (by simp), BitVec.and_allOnes⟩

/-- Format `XI` under mask 0xF000. -/
theorem rowMatch_XI (o x : Nibble) (nn : Byte) :
    formatXI o x nn &&& 0xF000#16 = formatA o 0#12 ∧ formatXI o x nn &&& 0xFFFF#16 = formatXI o x nn :=
  ⟨(maskF000_iff _ _).2 (by simp), BitVec.and_allOnes⟩

/-- Format `XS` under mask 0xF0FF. -/
theorem rowMatch_XS (o x : Nibble) (s : Byte) :
    formatXI o x s &&& 0xF0FF#16 = formatXI o 0#4 s ∧ formatXI o x s &&& 0xFFFF#16 = formatXI o x s :=
  ⟨(maskF0FF_iff _ _ _).2 (by simp), BitVec.and_allOnes⟩

/-- Format `XY` of family 8 under mask 0xF00F. -/
theorem rowMatch_XY8 (o x y s : Nibble) :
    formatXYN o x y s &&& 0xF00F#16 = formatXYN o 0#4 0#4 s ∧ formatXYN o x y s &&& 0xFFFF#16 = formatXYN o x y s :=
  ⟨(maskF00F_iff _ _ _).2 (by simp), BitVec.and_allOnes⟩

/-- Formats `XY` and `XYN` under mask 0xF000. -/
theorem rowMatch_XYN (o x y n : Nibble) : formatXYN o x y n &&& 0xF000#16 = formatA o 0#12 :=
  (maskF000_iff _ _).2 (by simp)

/-- Families 5 and 9: the canonical low nibble is 0. -/
theorem rowMatch_XY0 (o x y : Nibble) : formatXYN o x y 0 &&& 0xFFF0#16 = formatXYN o x y 0 := by
  rw [show (0xFFF0#16) = formatXYN (BitVec.allOnes 4) (BitVec.allOnes 4) (BitVec.allOnes 4) 0#4 from rfl, formatXYN_and,
    BitVec.and_allOnes, BitVec.and_allOnes, BitVec.and_allOnes]
  rfl

theorem Laws.RowMatch.cls : Laws.RowMatch.Statement (.cls) :=
  by unfold Laws.RowMatch.Statement; decide
theorem Laws.RowMatch.ret : Laws.RowMatch.Statement (.ret) :=
  by unfold Laws.RowMatch.Statement; decide
theorem Laws.RowMatch.jp (nnn : Addr12) : Laws.RowMatch.Statement (.jp nnn) :=
  ⟨by simp [Instr.row, opcodeTable], rowMatch_A _ _⟩
theorem Laws.RowMatch.call (nnn : Addr12) : Laws.RowMatch.Statement (.call nnn) :=
  ⟨by simp [Instr.row, opcodeTable], rowMatch_A _ _⟩
theorem Laws.RowMatch.seImm (x : Nibble) (nn : Byte) : Laws.RowMatch.Statement (.seImm x nn) :=
  ⟨by simp [Instr.row, opcodeTable], rowMatch_XI _ _ _⟩
theorem Laws.RowMatch.sneImm (x : Nibble) (nn : Byte) : Laws.RowMatch.Statement (.sneImm x nn) :=
  ⟨by simp [Instr.row, opcodeTable], rowMatch_XI _ _ _⟩
theorem Laws.RowMatch.seReg (x y : Nibble) : Laws.RowMatch.Statement (.seReg x y) :=
  ⟨by simp [Instr.row, opcodeTable], rowMatch_XYN _ _ _ _, rowMatch_XY0 _ _ _⟩
theorem Laws.RowMatch.ldImm (x : Nibble) (nn : Byte) : Laws.RowMatch.Statement (.ldImm x nn) :=
  ⟨by simp [Instr.row, opcodeTable], rowMatch_XI _ _ _⟩
theorem Laws.RowMatch.addImm (x : Nibble) (nn : Byte) : Laws.RowMatch.Statement (.addImm x nn) :=
  ⟨by simp [Instr.row, opcodeTable], rowMatch_XI _ _ _⟩
theorem Laws.RowMatch.ldReg (x y : Nibble) : Laws.RowMatch.Statement (.ldReg x y) :=
  ⟨by simp [Instr.row, opcodeTable], rowMatch_XY8 _ _ _ _⟩
theorem Laws.RowMatch.or (x y : Nibble) : Laws.RowMatch.Statement (.or x y) :=
  ⟨by simp [Instr.row, opcodeTable], rowMatch_XY8 _ _ _ _⟩
theorem Laws.RowMatch.and (x y : Nibble) : Laws.RowMatch.Statement (.and x y) :=
  ⟨by simp [Instr.row, opcodeTable], rowMatch_XY8 _ _ _ _⟩
theorem Laws.RowMatch.xor (x y : Nibble) : Laws.RowMatch.Statement (.xor x y) :=
  ⟨by simp [Instr.row, opcodeTable], rowMatch_XY8 _ _ _ _⟩
theorem Laws.RowMatch.addReg (x y : Nibble) : Laws.RowMatch.Statement (.addReg x y) :=
  ⟨by simp [Instr.row, opcodeTable], rowMatch_XY8 _ _ _ _⟩
theorem Laws.RowMatch.sub (x y : Nibble) : Laws.RowMatch.Statement (.sub x y) :=
  ⟨by simp [Instr.row, opcodeTable], rowMatch_XY8 _ _ _ _⟩
theorem Laws.RowMatch.shr (x y : Nibble) : Laws.RowMatch.Statement (.shr x y) :=
  ⟨by simp [Instr.row, opcodeTable], rowMatch_XY8 _ _ _ _⟩
theorem Laws.RowMatch.subn (x y : Nibble) : Laws.RowMatch.Statement (.subn x y) :=
  ⟨by simp [Instr.row, opcodeTable], rowMatch_XY8 _ _ _ _⟩
theorem Laws.RowMatch.shl (x y : Nibble) : Laws.RowMatch.Statement (.shl x y) :=
  ⟨by simp [Instr.row, opcodeTable], rowMatch_XY8 _ _ _ _⟩
theorem Laws.RowMatch.sneReg (x y : Nibble) : Laws.RowMatch.Statement (.sneReg x y) :=
  ⟨by simp [Instr.row, opcodeTable], rowMatch_XYN _ _ _ _, rowMatch_XY0 _ _ _⟩
theorem Laws.RowMatch.ldI (nnn : Addr12) : Laws.RowMatch.Statement (.ldI nnn) :=
  ⟨by simp [Instr.row, opcodeTable], rowMatch_A _ _⟩
theorem Laws.RowMatch.jpV0 (nnn : Addr12) : Laws.RowMatch.Statement (.jpV0 nnn) :=
  ⟨by simp [Instr.row, opcodeTable], rowMatch_A _ _⟩
theorem Laws.RowMatch.rnd (x : Nibble) (nn : Byte) : Laws.RowMatch.Statement (.rnd x nn) :=
  ⟨by simp [Instr.row, opcodeTable], rowMatch_XI _ _ _⟩
theorem Laws.RowMatch.drw (x y n : Nibble) : Laws.RowMatch.Statement (.drw x y n) :=
  ⟨by simp [Instr.row, opcodeTable], rowMatch_XYN _ _ _ _, BitVec.and_allOnes⟩
theorem Laws.RowMatch.skp (x : Nibble) : Laws.RowMatch.Statement (.skp x) :=
  ⟨by simp [Instr.row, opcodeTable], rowMatch_XS _ _ _⟩
theorem Laws.RowMatch.sknp (x : Nibble) : Laws.RowMatch.Statement (.sknp x) :=
  ⟨by simp [Instr.row, opcodeTable], rowMatch_XS _ _ _⟩
theorem Laws.RowMatch.ldVxDt (x : Nibble) : Laws.RowMatch.Statement (.ldVxDt x) :=
  ⟨by simp [Instr.row, opcodeTable], rowMatch_XS _ _ _⟩
theorem Laws.RowMatch.ldVxK (x : Nibble) : Laws.RowMatch.Statement (.ldVxK x) :=
  ⟨by simp [Instr.row, opcodeTable], rowMatch_XS _ _ _⟩
theorem Laws.RowMatch.ldDtVx (x : Nibble) : Laws.RowMatch.Statement (.ldDtVx x) :=
  ⟨by simp [Instr.row, opcodeTable], rowMatch_XS _ _ _⟩
theorem Laws.RowMatch.ldStVx (x : Nibble) : Laws.RowMatch.Statement (.ldStVx x) :=
  ⟨by simp [Instr.row, opcodeTable], rowMatch_XS _ _ _⟩
theorem Laws.RowMatch.addI (x : Nibble) : Laws.RowMatch.Statement (.addI x) :=
  ⟨by simp [Instr.row, opcodeTable], rowMatch_XS _ _ _⟩
theorem Laws.RowMatch.ldF (x : Nibble) : Laws.RowMatch.Statement (.ldF x) :=
  ⟨by simp [Instr.row, opcodeTable], rowMatch_XS _ _ _⟩
theorem Laws.RowMatch.ldB (x : Nibble) : Laws.RowMatch.Statement (.ldB x) :=
  ⟨by simp [Instr.row, opcodeTable], rowMatch_XS _ _ _⟩
theorem Laws.RowMatch.stRegs (x : Nibble) : Laws.RowMatch.Statement (.stRegs x) :=
  ⟨by simp [Instr.row, opcodeTable], rowMatch_XS _ _ _⟩
theorem Laws.RowMatch.ldRegs (x : Nibble) : Laws.RowMatch.Statement (.ldRegs x) :=
  ⟨by simp [Instr.row, opcodeTable], rowMatch_XS _ _ _⟩

end Sys2Proof
end

