-- ==== Sys2Proof/Tests/Slice0.lean ====
section
/-! SUPPORT. Tests, each on one decode or one step, with expected results from spec/95_test_vectors.md (its numbers are
cited), and for every statement with hypotheses a state and operands that meet them together. -/

namespace Sys2Proof.Machine

/-! ## Well-formedness (R63, R191): no operand can be ill-formed; a program of 3585 bytes is -/

theorem test_wellFormed_program_longest : programWellFormed (List.replicate 3584 0x00) = true := by
  simp only [programWellFormed, Config.progMax, List.length_replicate]; decide

theorem test_wellFormed_program_too_long : programWellFormed (List.replicate 3585 0x00) = false := by
  simp only [programWellFormed, Config.progMax, List.length_replicate]; decide

theorem test_wellFormed_operands : (Instr.drw 0xF 0xF 0xF).wellFormed = true ∧ (Instr.jp 0xFFF).wellFormed = true ∧
    (Instr.ldImm 0xF 0xFF).wellFormed = true := by decide

/-! ## Decoding and encoding: the words of section 2.1, written from the match, mask and field columns of R66 -/

theorem test_decode_cls : decodeWord 0b0000_0000_1110_0000 = some (.cls) ∧ encode (.cls) = 0x00E0 := by decide
theorem test_decode_ret : decodeWord 0b0000_0000_1110_1110 = some (.ret) ∧ encode (.ret) = 0x00EE := by decide
theorem test_decode_jp : decodeWord 0b0001_1010_1011_1100 = some (.jp 0xABC) ∧ encode (.jp 0xABC) = 0x1ABC := by decide
theorem test_decode_call : decodeWord 0b0010_1010_1011_1100 = some (.call 0xABC) ∧ encode (.call 0xABC) = 0x2ABC := by decide
theorem test_decode_seImm : decodeWord 0b0011_1010_0001_0010 = some (.seImm 0xA 0x12) ∧ encode (.seImm 0xA 0x12) = 0x3A12 := by decide
theorem test_decode_sneImm : decodeWord 0b0100_1010_0001_0010 = some (.sneImm 0xA 0x12) ∧ encode (.sneImm 0xA 0x12) = 0x4A12 := by decide
theorem test_decode_seReg : decodeWord 0b0101_1010_1011_0000 = some (.seReg 0xA 0xB) ∧ encode (.seReg 0xA 0xB) = 0x5AB0 := by decide
theorem test_decode_ldImm : decodeWord 0b0110_1010_0000_0010 = some (.ldImm 0xA 0x02) ∧ encode (.ldImm 0xA 0x02) = 0x6A02 := by decide
theorem test_decode_addImm : decodeWord 0b0111_1010_0000_0011 = some (.addImm 0xA 0x03) ∧ encode (.addImm 0xA 0x03) = 0x7A03 := by decide
theorem test_decode_ldReg : decodeWord 0b1000_1010_1011_0000 = some (.ldReg 0xA 0xB) ∧ encode (.ldReg 0xA 0xB) = 0x8AB0 := by decide
theorem test_decode_or : decodeWord 0b1000_1010_1011_0001 = some (.or 0xA 0xB) ∧ encode (.or 0xA 0xB) = 0x8AB1 := by decide
theorem test_decode_and : decodeWord 0b1000_1010_1011_0010 = some (.and 0xA 0xB) ∧ encode (.and 0xA 0xB) = 0x8AB2 := by decide
theorem test_decode_xor : decodeWord 0b1000_1010_1011_0011 = some (.xor 0xA 0xB) ∧ encode (.xor 0xA 0xB) = 0x8AB3 := by decide
theorem test_decode_addReg : decodeWord 0b1000_1010_1011_0100 = some (.addReg 0xA 0xB) ∧ encode (.addReg 0xA 0xB) = 0x8AB4 := by decide
theorem test_decode_sub : decodeWord 0b1000_1010_1011_0101 = some (.sub 0xA 0xB) ∧ encode (.sub 0xA 0xB) = 0x8AB5 := by decide
theorem test_decode_shr : decodeWord 0b1000_1010_1011_0110 = some (.shr 0xA 0xB) ∧ encode (.shr 0xA 0xB) = 0x8AB6 := by decide
theorem test_decode_subn : decodeWord 0b1000_1010_1011_0111 = some (.subn 0xA 0xB) ∧ encode (.subn 0xA 0xB) = 0x8AB7 := by decide
theorem test_decode_shl : decodeWord 0b1000_1010_1011_1110 = some (.shl 0xA 0xB) ∧ encode (.shl 0xA 0xB) = 0x8ABE := by decide
theorem test_decode_sneReg : decodeWord 0b1001_1010_1011_0000 = some (.sneReg 0xA 0xB) ∧ encode (.sneReg 0xA 0xB) = 0x9AB0 := by decide
theorem test_decode_ldI : decodeWord 0b1010_0000_0101_0000 = some (.ldI 0x050) ∧ encode (.ldI 0x050) = 0xA050 := by decide
theorem test_decode_jpV0 : decodeWord 0b1011_1010_1011_1100 = some (.jpV0 0xABC) ∧ encode (.jpV0 0xABC) = 0xBABC := by decide
theorem test_decode_rnd : decodeWord 0b1100_1010_0001_0010 = some (.rnd 0xA 0x12) ∧ encode (.rnd 0xA 0x12) = 0xCA12 := by decide
theorem test_decode_drw : decodeWord 0b1101_1010_1011_0101 = some (.drw 0xA 0xB 0x5) ∧ encode (.drw 0xA 0xB 0x5) = 0xDAB5 := by decide
theorem test_decode_skp : decodeWord 0b1110_1010_1001_1110 = some (.skp 0xA) ∧ encode (.skp 0xA) = 0xEA9E := by decide
theorem test_decode_sknp : decodeWord 0b1110_1010_1010_0001 = some (.sknp 0xA) ∧ encode (.sknp 0xA) = 0xEAA1 := by decide
theorem test_decode_ldVxDt : decodeWord 0b1111_1010_0000_0111 = some (.ldVxDt 0xA) ∧ encode (.ldVxDt 0xA) = 0xFA07 := by decide
theorem test_decode_ldVxK : decodeWord 0b1111_1010_0000_1010 = some (.ldVxK 0xA) ∧ encode (.ldVxK 0xA) = 0xFA0A := by decide
theorem test_decode_ldDtVx : decodeWord 0b1111_1010_0001_0101 = some (.ldDtVx 0xA) ∧ encode (.ldDtVx 0xA) = 0xFA15 := by decide
theorem test_decode_ldStVx : decodeWord 0b1111_1010_0001_1000 = some (.ldStVx 0xA) ∧ encode (.ldStVx 0xA) = 0xFA18 := by decide
theorem test_decode_addI : decodeWord 0b1111_1010_0001_1110 = some (.addI 0xA) ∧ encode (.addI 0xA) = 0xFA1E := by decide
theorem test_decode_ldF : decodeWord 0b1111_0000_0010_1001 = some (.ldF 0x0) ∧ encode (.ldF 0x0) = 0xF029 := by decide
theorem test_decode_ldB : decodeWord 0b1111_1010_0011_0011 = some (.ldB 0xA) ∧ encode (.ldB 0xA) = 0xFA33 := by decide
theorem test_decode_stRegs : decodeWord 0b1111_1010_0101_0101 = some (.stRegs 0xA) ∧ encode (.stRegs 0xA) = 0xFA55 := by decide
theorem test_decode_ldRegs : decodeWord 0b1111_1010_0110_0101 = some (.ldRegs 0xA) ∧ encode (.ldRegs 0xA) = 0xFA65 := by decide

/-! Ignored bits (R65, R68): another word of the same instruction. -/

theorem test_decode_ignored_bits : decodeWord 0x0EE0 = some .cls ∧ decodeWord 0x01EE = some .ret ∧
    decodeWord 0x5AB7 = some (.seReg 0xA 0xB) ∧ decodeWord 0x9ABF = some (.sneReg 0xA 0xB) := by decide

/-! Words of no row (R67). -/

theorem test_decode_unknown_0_8 : ([0x0000, 0x00E1, 0x00FE, 0x8AB8, 0x8AB9, 0x8ABA, 0x8ABD, 0x8ABF] : List Word).all
    (fun w => decide (decodeWord w = none)) = true := by decide

theorem test_decode_unknown_E_F : ([0xEA9F, 0xEAA0, 0xEA00, 0xFA75, 0xFA00, 0xFA1A, 0xFA85, 0xFAFF, 0xFFFF] :
    List Word).all (fun w => decide (decodeWord w = none)) = true := by decide

/-! From bytes, high byte first (R40), and the host's entry. -/

theorem test_decodeBytes : decodeBytes [0x6A, 0x02, 0x77] = .ok (.ldImm 0xA 0x02, [0x77]) := by rfl

theorem test_decodeBytes_unknown : decodeBytes [0x80, 0x18] = .error (.unknownWord 0x8018) := by rfl

theorem test_decodeBytes_short : decodeBytes [0x6A] = .error .truncated := by rfl

theorem test_encodeBytes : encodeBytes (.drw 0xA 0xB 0x5) = [0xDA, 0xB5] := by decide

theorem test_decodeTableWord : decodeTableWord 16 0xDAB5 = some (.drw 0xA 0xB 0x5) ∧ decodeTableWord 16 0x8AB8 = none := by
  decide

/-! ## One step: the vectors of sections 2.2 to 2.9

`onWord w` is the reset state with `w` at `PC`. -/

/-- The reset state with a word at 0x200, where `PC` is. -/
def onWord (w : Nat) : State := State.reset.withFetchWord 16 w

/-- Set registers. -/
def State.with (s : State) (rs : List (Nibble × Byte)) : State := rs.foldl (fun t p => t.setReg p.1 p.2) s

/-- Set memory bytes from an address. -/
def State.withBytes (s : State) (a : Nat) (bs : List Byte) : State := s.setMem (s.mem.writeBytes a bs)

/-- Light pixels. -/
def State.withPixels (s : State) (ps : List (Nat × Nat)) : State :=
  ps.foldl (fun t p => t.setDisp (togglePixel t.disp p.1 p.2)) s

/-- The outcome is a next state in which `p` holds. -/
def answers (o : Host.Outcome State Fault Refusal) (p : State → Bool) : Bool :=
  match o with
  | .next t => p t
  | .fault _ | .refused _ => false

/-- Vector 1. -/
theorem test_jp :
    answers (step (onWord 0x1234)) (fun t => decide (t.pc = 0x234)) = true := by decide

/-- Vector 2. -/
theorem test_jp_odd :
    answers (step (onWord 0x1FFF)) (fun t => decide (t.pc = 0xFFF ∧ t.fault = .none)) = true := by decide

/-- Vector 5. -/
theorem test_call_sixteenth :
    answers (step ({ onWord 0x2300 with sp := 15 })) (fun t => decide (t.pc = 0x300 ∧ t.sp = 16 ∧ t.stack[15] = 0x202)) = true := by decide

/-- Vector 6. -/
theorem test_call_overflow :
    answers (step ({ onWord 0x2300 with sp := 16 })) (fun t => decide (t.pc = 0x202 ∧ t.sp = 16 ∧ t.fault = .stackOverflow)) = true := by decide

/-- Vector 9. -/
theorem test_ret_underflow :
    answers (step (onWord 0x00EE)) (fun t => decide (t.pc = 0x202 ∧ t.sp = 0 ∧ t.fault = .stackUnderflow)) = true := by decide

/-- Vector 10. -/
theorem test_ret :
    answers (step ({ onWord 0x07EE with sp := 2, stack := (State.reset.stack.set 0 0x202).set 1 0x40A })) (fun t => decide (t.pc = 0x40A ∧ t.sp = 1 ∧ t.stack[1] = 0x40A)) = true := by decide

/-- Vector 12. -/
theorem test_jpV0_past_memory :
    answers (step ((onWord 0xBFFE).with [(0, 0x04)])) (fun t => decide (t.pc = 0x1002 ∧ t.fault = .none)) = true := by decide

/-- Vector 14. -/
theorem test_jpV0_is_V0 :
    answers (step ((onWord 0xB300).with [(3, 0x10)])) (fun t => decide (t.pc = 0x300)) = true := by decide

/-- Vector 15. -/
theorem test_seImm_skips :
    answers (step ((onWord 0x3A05).with [(0xA, 0x05)])) (fun t => decide (t.pc = 0x204)) = true := by decide

/-- Vector 18. -/
theorem test_sneImm_not :
    answers (step ((onWord 0x4A05).with [(0xA, 0x05)])) (fun t => decide (t.pc = 0x202)) = true := by decide

/-- Vector 19. -/
theorem test_sneImm_skips :
    answers (step ((onWord 0x4A05).with [(0xA, 0x06)])) (fun t => decide (t.pc = 0x204)) = true := by decide

/-- Vector 21. -/
theorem test_seReg_not :
    answers (step ((onWord 0x5120).with [(1, 0x07), (2, 0x08)])) (fun t => decide (t.pc = 0x202)) = true := by decide

/-- Vector 22. -/
theorem test_seReg_skips :
    answers (step ((onWord 0x512F).with [(1, 0x07), (2, 0x07)])) (fun t => decide (t.pc = 0x204)) = true := by decide

/-- Vector 24. -/
theorem test_sneReg_skips :
    answers (step ((onWord 0x9120).with [(1, 0x07), (2, 0x08)])) (fun t => decide (t.pc = 0x204)) = true := by decide

/-- Vector 26. -/
theorem test_sneReg_same :
    answers (step ((onWord 0x9337).with [(3, 0x99)])) (fun t => decide (t.pc = 0x202)) = true := by decide

/-- Vector 27. -/
theorem test_skip_past_memory :
    answers (step ({ onWord 0x3000 with pc := 0xFFE, mem := Memory.writeBytes [] 0xFFE [0x30, 0x00] })) (fun t => decide (t.pc = 0x1002 ∧ t.fault = .none)) = true := by decide

/-- Vector 28. -/
theorem test_ldImm :
    answers (step (onWord 0x6A02)) (fun t => decide (t.reg 0xA = 0x02 ∧ t.pc = 0x202)) = true := by decide

/-- Vector 31. -/
theorem test_addImm_wraps :
    answers (step ((onWord 0x7101).with [(1, 0xFF), (0xF, 0x07)])) (fun t => decide (t.reg 1 = 0x00 ∧ t.reg 0xF = 0x07)) = true := by decide

/-- Vector 32. -/
theorem test_addImm_flag_register :
    answers (step ((onWord 0x7FFF).with [(0xF, 0x02)])) (fun t => decide (t.reg 0xF = 0x01)) = true := by decide

/-- Vector 33. -/
theorem test_ldReg :
    answers (step ((onWord 0x8120).with [(2, 0x3C)])) (fun t => decide (t.reg 1 = 0x3C ∧ t.reg 2 = 0x3C)) = true := by decide

/-- Vector 34. -/
theorem test_or_keeps_flag :
    answers (step ((onWord 0x8121).with [(1, 0xF0), (2, 0x0F), (0xF, 0x55)])) (fun t => decide (t.reg 1 = 0xFF ∧ t.reg 0xF = 0x55)) = true := by decide

/-- Vector 35. -/
theorem test_and_keeps_flag :
    answers (step ((onWord 0x8122).with [(1, 0xF0), (2, 0x3C), (0xF, 0x55)])) (fun t => decide (t.reg 1 = 0x30 ∧ t.reg 0xF = 0x55)) = true := by decide

/-- Vector 36. -/
theorem test_xor_keeps_flag :
    answers (step ((onWord 0x8123).with [(1, 0xF0), (2, 0x3C), (0xF, 0x55)])) (fun t => decide (t.reg 1 = 0xCC ∧ t.reg 0xF = 0x55)) = true := by decide

/-- Vector 38. -/
theorem test_addReg_carry :
    answers (step ((onWord 0x8124).with [(1, 0xC8), (2, 0x64)])) (fun t => decide (t.reg 1 = 0x2C ∧ t.reg 0xF = 0x01)) = true := by decide

/-- Vector 44. -/
theorem test_addReg_flag_register :
    answers (step ((onWord 0x8F14).with [(0xF, 0xF0), (1, 0x20)])) (fun t => decide (t.reg 0xF = 0x01 ∧ t.reg 1 = 0x20)) = true := by decide

/-- Vector 47. -/
theorem test_sub_borrow :
    answers (step ((onWord 0x8125).with [(1, 0x05), (2, 0x07)])) (fun t => decide (t.reg 1 = 0xFE ∧ t.reg 0xF = 0x00)) = true := by decide

/-- Vector 53. -/
theorem test_sub_flag_operand :
    answers (step ((onWord 0x81F5).with [(1, 0x00), (0xF, 0x01)])) (fun t => decide (t.reg 1 = 0xFF ∧ t.reg 0xF = 0x00)) = true := by decide

/-- Vector 54. -/
theorem test_subn :
    answers (step ((onWord 0x8127).with [(1, 0x05), (2, 0x07)])) (fun t => decide (t.reg 1 = 0x02 ∧ t.reg 0xF = 0x01)) = true := by decide

/-- Vector 57. -/
theorem test_subn_flag_register :
    answers (step ((onWord 0x8F17).with [(0xF, 0x09), (1, 0x07)])) (fun t => decide (t.reg 0xF = 0x00)) = true := by decide

/-- Vector 60. -/
theorem test_shr_ignores_y :
    answers (step ((onWord 0x8126).with [(1, 0xFF), (2, 0x00)])) (fun t => decide (t.reg 1 = 0x7F ∧ t.reg 2 = 0x00 ∧ t.reg 0xF = 0x01)) = true := by decide

/-- Vector 61. -/
theorem test_shr_flag_register :
    answers (step ((onWord 0x8F06).with [(0xF, 0x03)])) (fun t => decide (t.reg 0xF = 0x00)) = true := by decide

/-- Vector 65. -/
theorem test_shl_ignores_y :
    answers (step ((onWord 0x812E).with [(1, 0xFF), (2, 0x01)])) (fun t => decide (t.reg 1 = 0xFE ∧ t.reg 2 = 0x01 ∧ t.reg 0xF = 0x01)) = true := by decide

/-- Vector 66. -/
theorem test_shl_flag_register :
    answers (step ((onWord 0x8F0E).with [(0xF, 0x80)])) (fun t => decide (t.reg 0xF = 0x02)) = true := by decide

/-- Vector 69. -/
theorem test_ldI :
    answers (step ((onWord 0xAFFF).setI 0x1234)) (fun t => decide (t.i = 0xFFF)) = true := by decide

/-- Vector 70. -/
theorem test_addI_past_memory :
    answers (step (((onWord 0xF11E).setI 0xFFE).with [(1, 0x05)])) (fun t => decide (t.i = 0x1003 ∧ t.reg 0xF = 0 ∧ t.fault = .none)) = true := by decide

/-- Vector 71. -/
theorem test_addI_wraps :
    answers (step (((onWord 0xF11E).setI 0xFFFF).with [(1, 0x02)])) (fun t => decide (t.i = 0x001)) = true := by decide

/-- Vector 74. -/
theorem test_ldF_low_nibble :
    answers (step (((onWord 0xF329).setI 0x300).with [(3, 0x1A)])) (fun t => decide (t.i = 0x032)) = true := by decide

/-- Vector 79. -/
theorem test_ldB :
    answers (step (((onWord 0xF133).setI 0xFFD).with [(1, 0x9C)])) (fun t => decide (t.mem.readByte 0xFFD = 0x01 ∧ t.mem.readByte 0xFFE = 0x05 ∧ t.mem.readByte 0xFFF = 0x06)) = true := by decide

/-- Vector 81. -/
theorem test_ldB_font :
    answers (step (((onWord 0xF133).setI 0x04F).with [(1, 0x9C)])) (fun t => decide (t.pc = 0x202 ∧ t.fault = .writeProtect ∧ t.mem.readByte 80 = 0)) = true := by decide

/-- Vector 84. -/
theorem test_stRegs :
    answers (step (((onWord 0xF255).setI 0x400).with [(0, 0x11), (1, 0x22), (2, 0x33), (3, 0x44)])) (fun t => decide (t.mem.readByte 0x400 = 0x11 ∧ t.mem.readByte 0x402 = 0x33 ∧ t.mem.readByte 0x403 = 0x00 ∧ t.i = 0x400)) = true := by decide

/-- Vector 86. -/
theorem test_stRegs_range :
    answers (step (((onWord 0xF155).setI 0xFFF).with [(0, 0xAB), (1, 0xCD)])) (fun t => decide (t.fault = .memRange ∧ t.mem.readByte 0xFFF = 0x00)) = true := by decide

/-- Vector 89. -/
theorem test_ldRegs_font :
    answers (step ((onWord 0xF265).setI 0x000)) (fun t => decide (t.reg 0 = 0xF0 ∧ t.reg 1 = 0x90 ∧ t.reg 2 = 0x90 ∧ t.reg 3 = 0x00 ∧ t.i = 0)) = true := by decide

/-- Vector 91. -/
theorem test_ldRegs_range :
    answers (step ((((onWord 0xF165).setI 0xFFF).with [(0, 0x55)]).withBytes 0xFFF [0x77])) (fun t => decide (t.fault = .memRange ∧ t.reg 0 = 0x55)) = true := by decide

/-- Vector 94. -/
theorem test_cls :
    answers (step ((onWord 0x0AE0).withPixels [(5, 5)])) (fun t => decide (t.pixel 5 5 = false ∧ t.disp = 0)) = true := by decide +kernel

/-- Vector 95. -/
theorem test_drw_wraps :
    answers (step (((onWord 0xD015).setI 0x005).with [(0, 0x3E), (1, 0x1E)])) (fun t => decide (t.reg 0xF = 0 ∧
      t.disp = (State.reset.withPixels [(0, 0), (1, 0), (2, 0), (2, 1), (2, 63), (30, 0), (31, 0), (31, 63)]).disp)) = true := by decide +kernel

/-- Vector 97. -/
theorem test_drw_collides :
    answers (step (((onWord 0xD011).setI 0x300).withBytes 0x300 [0x80] |>.withPixels [(0, 0)])) (fun t => decide (t.disp = 0 ∧ t.reg 0xF = 0x01)) = true := by decide +kernel

/-- Vector 105. -/
theorem test_ldVxDt :
    answers (step ((onWord 0xF307).setDt 42)) (fun t => decide (t.reg 3 = 0x2A ∧ t.dt = 42)) = true := by decide

/-- Vector 107. -/
theorem test_ldDtVx :
    answers (step ((onWord 0xF315).with [(3, 0x3C)])) (fun t => decide (t.dt = 60 ∧ t.st = 0)) = true := by decide

/-- Vector 109. -/
theorem test_ldStVx :
    answers (step ((onWord 0xF318).with [(3, 0x02)])) (fun t => decide (t.st = 2 ∧ t.dt = 0 ∧ t.soundOut)) = true := by decide

/-- Vector 110. -/
theorem test_rnd :
    answers (applyEvent defaultFont (.step 0xA7) (onWord 0xC30F)) (fun t => decide (t.reg 3 = 0x07 ∧ t.pc = 0x202 ∧ t.draws = 1)) = true := by decide

/-- Vector 113. -/
theorem test_rnd_flag_register :
    answers (applyEvent defaultFont (.step 0xFF) ((onWord 0xCFF0).with [(0xF, 0x01)])) (fun t => decide (t.reg 0xF = 0xF0)) = true := by decide

/-- Vector 116. -/
theorem test_skp_low_nibble :
    answers (step (((onWord 0xE29E).with [(2, 0x1A)]).setKeys 0x0400)) (fun t => decide (t.pc = 0x204)) = true := by decide

/-- Vector 115. -/
theorem test_skp_not :
    answers (step ((onWord 0xE29E).with [(2, 0x07)])) (fun t => decide (t.pc = 0x202)) = true := by decide

/-- Vector 117. -/
theorem test_sknp_skips :
    answers (step ((onWord 0xE2A1).with [(2, 0x07)])) (fun t => decide (t.pc = 0x204)) = true := by decide

/-- Vector 118. -/
theorem test_sknp_not :
    answers (step (((onWord 0xE2A1).with [(2, 0x07)]).setKeys 0x0080)) (fun t => decide (t.pc = 0x202)) = true := by decide

/-- Vector 120. -/
theorem test_ldVxK :
    answers (step ((onWord 0xF30A).setKeys 0x0020)) (fun t => decide (t.pc = 0x202 ∧ t.wait ∧ t.waitx = 3 ∧ t.reg 3 = 0)) = true := by decide

/-- Vector 124. -/
theorem test_unknown :
    answers (step ((onWord 0x8018).with [(1, 0x11), (0xF, 0x01)])) (fun t => decide (t = ((onWord 0x8018).with [(1, 0x11), (0xF, 0x01)]).advance)) = true := by decide +kernel

/-- Vector E1. -/
theorem test_badFetch_odd :
    answers (step ({ State.reset with pc := 0x201 })) (fun t => decide (t.fault = .badFetch ∧ t.pc = 0x201)) = true := by decide

/-- Vector E2. -/
theorem test_badFetch_past_memory :
    answers (step ({ State.reset with pc := 0x1000 })) (fun t => decide (t.fault = .badFetch ∧ t.pc = 0x1000)) = true := by decide

/-- Vector E3. -/
theorem test_last_fetch :
    answers (step ({ State.reset.withBytes 0xFFE [0x6A, 0x02] with pc := 0xFFE })) (fun t => decide (t.reg 0xA = 2 ∧ t.pc = 0x1000 ∧ t.fault = .none)) = true := by decide

/-- Vector E4. -/
theorem test_halted :
    answers (step ({ State.reset.withBytes 0x204 [0x6A, 0x02] with pc := 0x204, fault := .stackUnderflow })) (fun t => decide (t.pc = 0x204 ∧ t.reg 0xA = 0)) = true := by decide

/-- Vector E7. -/
theorem test_tick :
    answers (applyEvent defaultFont (.tick) ((State.reset.setDt 255).setSt 3)) (fun t => decide (t.dt = 254 ∧ t.st = 2)) = true := by decide

/-- Vector E5, E9. -/
theorem test_tick_floor_halted :
    answers (applyEvent defaultFont (.tick) ({ State.reset.setDt 1 with fault := .stackOverflow })) (fun t => decide (t.dt = 0 ∧ t.st = 0 ∧ t.fault = .stackOverflow)) = true := by decide

/-- Vector E12. -/
theorem test_keyResolve :
    answers (applyEvent defaultFont (.keyResolve 0xB) ((State.reset.suspend 3).with [(3, 0xEE)])) (fun t => decide (t.reg 3 = 0x0B ∧ t.wait = false)) = true := by decide

/-- Vector E13. -/
theorem test_keyResolve_ignored :
    answers (applyEvent defaultFont (.keyResolve 0xB) ({ State.reset.with [(3, 0xEE)] with waitx := 3 })) (fun t => decide (t.reg 3 = 0xEE ∧ t.wait = false)) = true := by decide

/-- Vector E15. -/
theorem test_keySet :
    answers (applyEvent defaultFont (.keySet 0x0020) (State.reset.suspend 3)) (fun t => decide (t.keyDown 5 ∧ t.keys = 0x0020 ∧ t.wait)) = true := by decide

/-- Vector E17. -/
theorem test_reset :
    answers (applyEvent defaultFont (.reset [0x12, 0x00]) ({ (State.reset.setDt 99).withPixels [(1, 1)] with fault := .memRange, sp := 7 })) (fun t => decide (t = State.reset.withBytes 0x200 [0x12, 0x00])) = true := by decide +kernel

/-- R6, R190: a reset copies whatever `FONT` the core has, and a glyph is read from it. -/
theorem test_reset_other_font :
    answers (applyEvent (Vector.replicate 80 0x3C) (.reset [0x12, 0x00]) State.reset) (fun t => decide
      (t.mem.readByte 0 = 0x3C ∧ t.mem.readByte 79 = 0x3C ∧ t.mem.readByte 80 = 0 ∧ t.mem.readByte 0x200 = 0x12 ∧
        t.mem.wf)) = true := by decide +kernel

/-- R24: the default font, glyph 1 and the last row of glyph F. -/
theorem test_defaultFont : defaultFont[5] = 0x20 ∧ defaultFont[9] = 0x70 ∧ defaultFont[79] = 0x80 := by decide

/-- Vectors 124 and E4: `unknown` is pulsed by the step that executes UNKNOWN, not while halted, nor by another event. -/
theorem test_unknownPulse : unknownPulse (.step 0) (onWord 0x8018) = true ∧ unknownPulse .tick (onWord 0x8018) = false ∧
    unknownPulse (.step 0) { onWord 0x8018 with fault := .stackUnderflow } = false := by decide

/-! ## The hypotheses of the statements can be met

One theorem per statement with hypotheses, or per clause of one: a state and operands that meet them together, at the
boundary of each range. -/

theorem test_hyp_EncodeOfDecode :
    decodeWord 0x5AB7 = some (.seReg 0xA 0xB) :=
  by decide

theorem test_hyp_WordSelectsRowByMask :
    (⟨0x800E, 0xF00F⟩ : OpcodeRow) ∈ opcodeTable ∧ (0x8ABE : Word) &&& 0xF00F = 0x800E :=
  by decide

theorem test_hyp_WordSelectsRowByMask_decoded :
    decodeWord 0x8ABE = some (.shl 0xA 0xB) ∧ (Instr.shl 0xA 0xB).row = ⟨0x800E, 0xF00F⟩ :=
  by decide

theorem test_hyp_StepRunsDecodedInstruction :
    (onWord 0x6A02).Runs ∧ (onWord 0x6A02).WordAtPc 0x6A02 ∧ decodeWord 0x6A02 = some (.ldImm 0xA 0x02) :=
  by unfold State.Runs State.WordAtPc; decide

theorem test_hyp_StepRunsDecodedInstruction_last :
    ({ State.reset.withBytes 0xFFE [0x6A, 0x02] with pc := 0xFFE } : State).Runs ∧
    ({ State.reset.withBytes 0xFFE [0x6A, 0x02] with pc := 0xFFE } : State).WordAtPc 0x6A02 :=
  by unfold State.Runs State.WordAtPc; decide

theorem test_hyp_GatedStepChangesNothing :
    ({ State.reset with fault := .memRange } : State).fault ≠ .none ∧ (State.reset.suspend 3).wait = true :=
  by decide

theorem test_hyp_BadFetchLatchesCode_odd :
    ({ State.reset with pc := 0x201 } : State).fault = .none ∧ ({ State.reset with pc := 0x201 } : State).wait = false ∧
    ({ State.reset with pc := 0x201 } : State).pc.toNat % 2 = 1 :=
  by decide

theorem test_hyp_BadFetchLatchesCode_past :
    ({ State.reset with pc := 0x1000 } : State).fault = .none ∧ ({ State.reset with pc := 0x1000 } : State).wait = false ∧
    4094 < ({ State.reset with pc := 0x1000 } : State).pc.toNat :=
  by decide

theorem test_hyp_UnknownOnlyAdvances :
    (onWord 0x8018).Runs ∧ (onWord 0x8018).WordAtPc 0x8018 ∧ decodeWord 0x8018 = none :=
  by unfold State.Runs State.WordAtPc; decide

theorem test_hyp_UnknownPulseExactly :
    (onWord 0x8018).WordAtPc 0x8018 :=
  by unfold State.WordAtPc; decide

theorem test_hyp_CallPushesOrOverflows_slot :
    ({ State.reset with sp := 15 } : State).sp.toNat ≤ 15 ∧
    (15 : Fin 16).val = ({ State.reset with sp := 15 } : State).sp.toNat :=
  by decide

theorem test_hyp_CallPushesOrOverflows_full :
    ({ State.reset with sp := 16 } : State).sp.toNat = 16 :=
  by decide

theorem test_hyp_RetPopsOrUnderflows_live :
    1 ≤ ({ State.reset with sp := 16 } : State).sp.toNat ∧ ({ State.reset with sp := 16 } : State).sp.toNat ≤ 16 ∧
    (15 : Fin 16).val = ({ State.reset with sp := 16 } : State).sp.toNat - 1 :=
  by decide

theorem test_hyp_RetPopsOrUnderflows_one :
    1 ≤ ({ State.reset with sp := 1 } : State).sp.toNat ∧ ({ State.reset with sp := 1 } : State).sp.toNat ≤ 16 ∧
    (0 : Fin 16).val = ({ State.reset with sp := 1 } : State).sp.toNat - 1 :=
  by decide

theorem test_hyp_RetPopsOrUnderflows_empty :
    State.reset.sp.toNat = 0 :=
  by decide

theorem test_hyp_RetUndoesCall :
    State.reset.sp.toNat ≤ 15 ∧ ({ State.reset with sp := 15 } : State).sp.toNat ≤ 15 :=
  by decide

theorem test_hyp_IllegalStackPointerStops :
    16 < ({ State.reset with sp := 17 } : State).sp.toNat :=
  by decide

theorem test_hyp_SkipStepAdvancesFourOrTwo_four :
    (onWord 0x3A00).Runs ∧ (onWord 0x3A00).WordAtPc 0x3A00 ∧ decodeWord 0x3A00 = some (.seImm 0xA 0x00) ∧
    skipCondition (.seImm 0xA 0x00) (onWord 0x3A00) = some true :=
  by unfold State.Runs State.WordAtPc; decide

theorem test_hyp_SkipStepAdvancesFourOrTwo_two :
    (onWord 0xE29E).Runs ∧ (onWord 0xE29E).WordAtPc 0xE29E ∧ decodeWord 0xE29E = some (.skp 2) ∧
    skipCondition (.skp 2) (onWord 0xE29E) = some false :=
  by unfold State.Runs State.WordAtPc; decide

/-- The two cases of AddSetsCarryLast, SubSetsNoBorrowLast, SubnSetsNoBorrowLast, ShrShiftsInPlace and ShlShiftsInPlace. -/
theorem test_hyp_flag_clauses :
    (0xE : Nibble) ≠ flagReg ∧ (0xF : Nibble) = flagReg :=
  by decide

theorem test_hyp_BcdStoresDigitsOrFaults :
    (80 ≤ (State.reset.setI 80).i.toNat ∧ (State.reset.setI 80).i.toNat ≤ 4093) ∧
    (80 ≤ (State.reset.setI 4093).i.toNat ∧ (State.reset.setI 4093).i.toNat ≤ 4093) :=
  by decide

theorem test_hyp_BcdStoresDigitsOrFaults_stops :
    4093 < (State.reset.setI 4094).i.toNat ∧ (State.reset.setI 79).i.toNat < 80 :=
  by decide

theorem test_hyp_BulkStoreOrFaults :
    80 ≤ (State.reset.setI 4080).i.toNat ∧ (State.reset.setI 4080).i.toNat + (0xF : Nibble).toNat ≤ 4095 ∧
    (0xF : Nibble).toNat ≤ (0xF : Nibble).toNat :=
  by decide

theorem test_hyp_BulkStoreOrFaults_stops :
    4095 < (State.reset.setI 4095).i.toNat + (1 : Nibble).toNat ∧ (State.reset.setI 79).i.toNat < 80 :=
  by decide

theorem test_hyp_BulkLoadOrFaults :
    (State.reset.setI 4095).i.toNat + (0 : Nibble).toNat ≤ 4095 ∧ (0 : Nibble).toNat ≤ (0 : Nibble).toNat ∧
    (0 : Nibble).toNat < (1 : Nibble).toNat :=
  by decide

theorem test_hyp_BulkLoadOrFaults_range :
    4095 < (State.reset.setI 4095).i.toNat + (1 : Nibble).toNat :=
  by decide

theorem test_hyp_StoredWordIsFetchedNext :
    let s := (State.reset.setI 0x200).with [(0, 0x60), (1, 0x2A)]
    1 ≤ (1 : Nibble).toNat ∧ 80 ≤ s.i.toNat ∧ s.i.toNat + (1 : Nibble).toNat ≤ 4095 ∧ s.i = s.pc ∧ s.pc.toNat % 2 = 0 ∧
    s.fault = .none ∧ s.wait = false ∧ (0x602A : Word).toNat = 256 * (s.reg 0).toNat + (s.reg 1).toNat ∧
    decodeWord 0x602A = some (.ldImm 0 0x2A) :=
  by decide

theorem test_hyp_DrwXorsSpriteOrFaults :
    (0 : Nibble).toNat = 0 ∧ (State.reset.setI 0xFFF).i.toNat + (1 : Nibble).toNat ≤ 4096 :=
  by decide

theorem test_hyp_DrwXorsSpriteOrFaults_collides :
    let s := (State.reset.setI 0x300).withBytes 0x300 [0x80] |>.withPixels [(0, 0)]
    (0 < (1 : Nibble).toNat ∧ 0 < 8 ∧ s.spriteBitAt 0 0 = true ∧
      s.pixel (((s.reg 0).toNat + 0) % 32) (((s.reg 0).toNat + 0) % 64) = true) :=
  by decide +kernel

theorem test_hyp_DrwXorsSpriteOrFaults_misses :
    let s := (State.reset.setI 0x300).withPixels [(0, 0)]
    (∀ r, r < 1 → ∀ c, c < 8 → s.spriteBitAt r c = false) ∧
    ∀ dr, dr < 1 → ∀ dc, dc < 8 → ¬(31 = ((s.reg 0).toNat + dr) % 32 ∧ 63 = ((s.reg 0).toNat + dc) % 64) :=
  by decide +kernel

theorem test_hyp_DrwXorsSpriteOrFaults_range :
    1 ≤ (2 : Nibble).toNat ∧ 4096 < (State.reset.setI 0xFFF).i.toNat + (2 : Nibble).toNat :=
  by decide

/-- The second draw's state is the first draw's result, and a 1 bit of the sprite falls on a pixel that was 0. -/
theorem test_hyp_SecondDrawRestores :
    (State.reset.setI 5).i.toNat + (5 : Nibble).toNat ≤ 4096 ∧
    answers (exec (.drw 0 1 5) (State.reset.setI 5)) (fun t => decide (t.disp = t.disp ∧ t.i = (State.reset.setI 5).i ∧
      t.mem = (State.reset.setI 5).mem ∧ t.reg 0 = State.reset.reg 0 ∧ t.reg 1 = State.reset.reg 1)) = true ∧
    (State.reset.setI 5).spriteBitAt 0 2 = true ∧ State.reset.pixel 0 2 = false := by decide +kernel

theorem test_hyp_RndMasksTheRandomByte :
    (State.reset.setRndIn (some 0xA7)).rndIn = some 0xA7 ∧ State.reset.rndIn = none ∧ (0x0F : Byte).getLsbD 4 = false :=
  by decide

theorem test_hyp_RndMasksTheRandomByte_event : (onWord 0xC30F).Runs ∧ (onWord 0xC30F).WordAtPc 0xC30F ∧
    decodeWord 0xC30F = some (.rnd 3 0x0F) := by
  unfold State.Runs State.WordAtPc; decide

theorem test_hyp_OnlyRndSeesTheRandomInput :
    (∀ x nn, Instr.cls ≠ .rnd x nn) ∧ ∃ t, exec .cls State.reset = .next t :=
  ⟨fun _ _ => nofun, _, rfl⟩

theorem test_hyp_KeyWaitBothHalves :
    (State.reset.suspend 3).wait = true ∧ State.reset.wait = false :=
  by decide

theorem test_hyp_KeyWaitOutlastsSteps :
    ∃ t, exec (.ldVxK 3) State.reset = .next t :=
  ⟨_, rfl⟩

theorem test_hyp_ResetEventSetsEverything :
    ([] : List Byte).length ≤ 3584 ∧ (List.replicate 3584 (0x12 : Byte)).length ≤ 3584 :=
  ⟨by decide, by rw [List.length_replicate]⟩

theorem test_hyp_OversizedResetRefused :
    3584 < (List.replicate 3585 (0x12 : Byte)).length :=
  by rw [List.length_replicate]; decide

theorem test_hyp_EventsWriteOnlyTheirOwnState :
    ∃ t u v, applyEvent defaultFont .tick State.reset = .next t ∧ applyEvent defaultFont (.keySet 0x0020) State.reset = .next u ∧
    applyEvent defaultFont (.keyResolve 5) (State.reset.suspend 3) = .next v :=
  ⟨_, _, _, rfl, rfl, rfl⟩

theorem test_hyp_StepNeverWritesKeysOrFont :
    ∃ t, Machine.step ((onWord 0xF133).setI 80) = .next t ∧ 79 < 80 :=
  ⟨_, rfl, by decide⟩

theorem test_hyp_OnlyTheirInstructionsChangeTimers :
    (∀ x, Instr.ldStVx 3 ≠ .ldDtVx x) ∧ (∀ x, Instr.ldDtVx 3 ≠ .ldStVx x) ∧
    ∃ t u, exec (.ldStVx 3) State.reset = .next t ∧ exec (.ldDtVx 3) State.reset = .next u :=
  ⟨fun _ => nofun, fun _ => nofun, _, _, rfl, rfl⟩

theorem test_hyp_RegistersWrittenByFormOnly :
    (∃ t, exec (.addReg 1 2) State.reset = .next t) ∧ mayWriteReg (.addReg 1 2) 2 = false ∧
    (∃ t, exec (.ldRegs 4) State.reset = .next t) ∧ mayWriteReg (.ldRegs 4) 5 = false :=
  ⟨⟨_, rfl⟩, by decide, ⟨_, rfl⟩, by decide⟩

/-- Of FaultTableExactly too. -/
theorem test_hyp_FaultsArePrecise :
    State.reset.fault = .none ∧ ∃ t, exec .ret State.reset = .next t ∧ t.fault ≠ .none :=
  ⟨rfl, _, rfl, by decide⟩

theorem test_hyp_FaultIsSticky :
    let s : State := { State.reset with fault := .memRange }
    s.fault ≠ .none ∧ (∃ t, applyEvent defaultFont (.step 7) s = .next t) ∧ (∀ prog, Event.step 7 ≠ .reset prog) ∧
    (∃ t, applyEvent defaultFont .tick s = .next t) ∧ ∀ prog, Event.tick ≠ .reset prog :=
  ⟨by decide, ⟨_, rfl⟩, fun _ => nofun, ⟨_, rfl⟩, fun _ => nofun⟩

theorem test_hyp_MemoryStaysCanonical :
    (onWord 0x6A02).mem.wf ∧ ∃ t, Machine.step (onWord 0x6A02) = .next t :=
  ⟨by decide, _, rfl⟩

/-- A state with one live return address, `PC` as high as it can be, and a byte stored in memory. -/
def legalExample : State :=
  { State.reset.withBytes 0x300 [0x01] with sp := 1, stack := Vector.replicate 16 0x1000, pc := 4350 }

theorem legalExample_legal : Legal defaultFont legalExample where
  spLegal := by decide
  pcBound := by decide
  liveReturns k hk := by
    have h : legalExample.stack[k] = 0x1000 := Vector.getElem_replicate k.isLt
    rw [h]; decide
  memCanonical := by decide
  fontKept := by decide
  waitNoFault := by decide

/-- Of LegalStepAlwaysAnswers too. -/
theorem test_hyp_LegalKeptByStep : Legal defaultFont legalExample ∧ (∃ t, Machine.step legalExample = .next t) ∧
    legalExample.WordAtPc 0x0000 :=
  ⟨legalExample_legal, ⟨_, rfl⟩, by unfold State.WordAtPc; decide⟩

theorem test_hyp_LegalKeptByEvents : Legal defaultFont legalExample ∧
    ∀ prog, Event.reset prog ∈ [Event.tick, Event.reset [0x12, 0x00], Event.step 0] → prog.length ≤ 3584 :=
  ⟨legalExample_legal, fun prog h => by
    simp only [List.mem_cons, List.not_mem_nil, or_false, reduceCtorEq, false_or, Event.reset.injEq] at h
    subst h; decide⟩

end Sys2Proof.Machine
end

/-! # Part 10_state: the rules over the whole state (spec/10_state.md R10 to R31) -/

namespace Sys2Proof.Machine

/-! ## What each effect of an instruction leaves legal (R15 to R17, R28, R48, R164) -/

/-- The clause of `Legal` on the live return addresses. -/
def State.LiveReturnsLegal (s : State) : Prop :=
  ∀ k : Fin 16, k.val < s.sp.toNat → s.stack[k].toNat % 2 = 0 ∧ s.stack[k].toNat ≤ 4096

section
variable {s t : State}

/-- Only `key_set` writes `KEYS` (R31). -/
theorem Effect.keys_eq (he : Effect s t) : t.keys = s.keys := by
  cases he <;> rfl

/-- A store begins at 80 or above, so it leaves the font cells alone (R48). -/
theorem Effect.readByte_font (he : Effect s t) {a : Nat} (ha : a < 80) : t.mem.readByte a = s.mem.readByte a := by
  cases he with
  | store bs h0 h1 => exact Memory.readByte_writeBytes_below bs s.mem _ a (by rw [State.dataAddr_eq]; omega)
  | _ => rfl

theorem Effect.mem_wf (he : Effect s t) (h : s.mem.wf) : t.mem.wf := by
  cases he with
  | store bs h0 h1 => exact Memory.wf_writeBytes bs s.mem _ h
  | _ => exact h

theorem State.toNat_pushPc_sp (h : s.sp.toNat < 16) : (s.pushPc h).sp.toNat = s.sp.toNat + 1 := by
  rw [State.pushPc_sp, BitVec.toNat_add, BitVec.toNat_ofNat]; omega

theorem State.toNat_popPc_sp (h0 : s.sp ≠ 0#8) (h : (s.sp - 1#8).toNat < 16) :
    (s.popPc h).sp.toNat + 1 = s.sp.toNat := by
  have hpos : s.sp.toNat ≠ 0 := fun hz => h0 (BitVec.eq_of_toNat_eq hz)
  rw [State.popPc_sp]; bv_omega

theorem Effect.sp_le (he : Effect s t) (hsp : s.sp.toNat ≤ 16) : t.sp.toNat ≤ 16 := by
  cases he with
  | push h nnn => have := State.toNat_pushPc_sp h; rw [State.setPc_sp]; omega
  | pop h0 h => have := State.toNat_popPc_sp h0 h; omega
  | _ => exact hsp

/-- A popped return address is one of the live entries (R92). -/
theorem State.popPc_pc_le (h0 : s.sp ≠ 0#8) (h : (s.sp - 1#8).toNat < 16) (hl : s.LiveReturnsLegal) :
    (s.popPc h).pc.toNat ≤ 4096 :=
  (hl ⟨_, h⟩ (Nat.lt_of_succ_le (State.toNat_popPc_sp h0 h).le)).2

/-- `PC` passes 4096 only by JP V0 and by a skip, and never 4350 (R15). -/
theorem Effect.pc_le (he : Effect s t) (hpc : s.pc.toNat ≤ 4096) (hl : s.LiveReturnsLegal) :
    t.pc.toNat ≤ 4350 := by
  cases he with
  | jump w h => exact h
  | skip => rw [State.advance_pc, BitVec.toNat_add, BitVec.toNat_ofNat]; omega
  | push h nnn => have := nnn.isLt; rw [State.setPc_pc, toNat_zextAddr]; omega
  | pop h0 h => have := State.popPc_pc_le h0 h hl; omega
  | _ => exact hpc.trans (by decide)

/-- CALL pushes the even advanced `PC`, and no other effect makes or changes a live entry (R91, R17). -/
theorem Effect.liveReturns (he : Effect s t) (hpc : s.pc.toNat % 2 = 0 ∧ s.pc.toNat ≤ 4096)
    (hl : s.LiveReturnsLegal) : t.LiveReturnsLegal := by
  cases he with
  | push h nnn =>
    intro k hk
    rw [State.setPc_sp, State.toNat_pushPc_sp] at hk
    have hget : (s.pushPc h).stack[k] = if s.sp.toNat = k.val then s.pc else s.stack[k] :=
      Vector.getElem_set h k.isLt
    rw [State.setPc_stack, hget]
    split
    · exact hpc
    · exact hl k (by omega)
  | pop h0 h =>
    intro k hk
    have := State.toNat_popPc_sp h0 h
    exact hl k (by omega)
  | _ => exact hl

/-- No effect both suspends and faults (R164). -/
theorem Effect.waitNoFault (he : Effect s t) (hw : s.wait = false) (hf : s.fault = .none) :
    t.wait = true → t.fault = .none := by
  cases he with
  | fault c h0 h1 => intro h; exact absurd (hw.symm.trans h) Bool.false_ne_true
  | _ => exact fun _ => hf

/-- An instruction executed in a legal state whose `PC` is as a fetch leaves it ends in a legal state. -/
theorem Effect.keeps_legal {font : Font} (he : Effect s t) (h : Legal font s) (hw : s.wait = false)
    (hf : s.fault = .none) (hpc : s.pc.toNat % 2 = 0 ∧ s.pc.toNat ≤ 4096) : Legal font t where
  spLegal := he.sp_le h.spLegal
  pcBound := he.pc_le hpc.2 h.liveReturns
  liveReturns := he.liveReturns hpc h.liveReturns
  memCanonical := he.mem_wf h.memCanonical
  fontKept k := (he.readByte_font k.isLt).trans (h.fontKept k)
  waitNoFault := he.waitNoFault hw hf

/-- A legal state stays legal under a change to what `Legal` does not speak of, and when a wait ends. -/
theorem Legal.of_eq {font : Font} (h : Legal font s) (hsp : t.sp = s.sp) (hpc : t.pc = s.pc)
    (hstack : t.stack = s.stack) (hmem : t.mem = s.mem) (hfault : t.fault = s.fault)
    (hwait : t.wait = true → s.wait = true) : Legal font t where
  spLegal := hsp ▸ h.spLegal
  pcBound := hpc ▸ h.pcBound
  liveReturns := by rw [hsp, hstack]; exact h.liveReturns
  memCanonical := hmem ▸ h.memCanonical
  fontKept := hmem ▸ h.fontKept
  waitNoFault hw := hfault.trans (h.waitNoFault (hwait hw))

end

/-- The advance of a fetch that succeeds leaves an even `PC` of at most 4096, in a legal state (R83). -/
theorem legal_advance {font : Font} {s : State} (h : Legal font s) (hr : s.Runs) :
    Legal font s.advance ∧ s.advance.pc.toNat % 2 = 0 ∧ s.advance.pc.toNat ≤ 4096 := by
  obtain ⟨-, -, heven, hle⟩ := hr
  have hpc := State.toNat_advance_pc s hle
  have hbound : s.advance.pc.toNat ≤ 4096 := by omega
  exact ⟨{ h with pcBound := hbound.trans (by decide) }, by omega, hbound⟩

/-- A fault latched in a state that does not wait leaves it legal (R162, R164). -/
theorem legal_raise {font : Font} {s : State} (h : Legal font s) (hw : s.wait = false) (c : FaultCode) :
    Legal font (s.raise c) :=
  { h with waitNoFault := fun hc => absurd (hw.symm.trans hc) Bool.false_ne_true }

/-- No latch gates the step (R80). -/
theorem State.gated_false_iff (s : State) : s.gated = false ↔ s.fault = .none ∧ s.wait = false := by
  simp [State.gated]

/-- Settles O58, by the ways a step can go: gated, a bad fetch, or an effect in the advanced state. -/
theorem legalKeptByStep : Obligations.LegalKeptByStep := by
  intro font s t h hs
  obtain ⟨-, rfl⟩ | ⟨hg, -, rfl⟩ | ⟨hr, he⟩ := step_cases s t hs
  · exact h
  · exact legal_raise h (s.gated_false_iff.1 hg).2 _
  · obtain ⟨ha, hpc⟩ := legal_advance h hr
    obtain ⟨hf, hw, -⟩ := hr
    exact he.keeps_legal ha hw hf hpc

/-! ## A step answers wherever `SP` is legal (R16, R91, R92) -/

/-- CALL stops only above 16 (log entry 5). -/
theorem execCall_answers (nnn : Addr12) (s : State) (h : s.sp.toNat ≤ 16) : ∃ t, execCall nnn s = .next t := by
  unfold execCall
  split
  · exact ⟨_, rfl⟩
  · next hne =>
    have hlt : s.sp.toNat < 16 := by bv_omega
    exact ⟨_, dif_pos hlt⟩

/-- RET stops only above 16 (log entry 5). -/
theorem execRet_answers (s : State) (h : s.sp.toNat ≤ 16) : ∃ t, execRet s = .next t := by
  unfold execRet
  split
  · exact ⟨_, rfl⟩
  · next hne =>
    have hlt : (s.sp - 1#8).toNat < 16 := by bv_omega
    exact ⟨_, dif_pos hlt⟩

/-- A checked access always answers: it completes or takes its fault. -/
theorem State.faultOr_answers (s : State) (f : Option FaultCode) (u : State) : ∃ t, s.faultOr f u = .next t := by
  cases f <;> exact ⟨_, rfl⟩

theorem exec_answers (i : Instr) (s : State) (h : s.sp.toNat ≤ 16) : ∃ t, exec i s = .next t := by
  cases i with
  | call nnn => exact execCall_answers nnn s h
  | ret => exact execRet_answers s h
  | drw | ldB | stRegs | ldRegs => exact s.faultOr_answers _ _
  | _ => exact ⟨_, rfl⟩

theorem step_answers (s : State) (h : s.sp.toNat ≤ 16) : ∃ t, step s = .next t := by
  unfold step
  split
  · exact ⟨_, rfl⟩
  · split
    · exact ⟨_, rfl⟩
    · split
      · exact exec_answers _ s.advance h
      · exact ⟨_, rfl⟩

/-! ## Host events keep a state legal (R180, R190) -/

/-- A reset event with a program of legal length answers (R191). -/
theorem resetEvent_of_le (font : Font) (prog : List Byte) (s : State) (h : prog.length ≤ 3584) :
    resetEvent font prog s = .next (State.afterReset font prog s) :=
  if_pos (decide_eq_true h)

theorem legal_afterReset (font : Font) (prog : List Byte) (s : State) (h : prog.length ≤ 3584) :
    Legal font (State.afterReset font prog s) where
  spLegal := Nat.zero_le _
  pcBound := (by decide : Config.resetPc.toNat ≤ 4350)
  liveReturns _ hk := absurd hk (Nat.not_lt_zero _)
  memCanonical := Memory.wf_afterReset font prog
  fontKept := Memory.readByte_afterReset_font font prog h
  waitNoFault _ := rfl

/-- The step event from a legal state answers a legal state: the `rnd` input is nothing `Legal` speaks of. -/
theorem stepEvent_keeps_legal (font : Font) (b : Byte) (s : State) (h : Legal font s) :
    ∃ t, stepEvent b s = .next t ∧ Legal font t := by
  have hin : Legal font (s.setRndIn (some b)) := h.of_eq rfl rfl rfl rfl rfl id
  obtain ⟨t, ht⟩ := step_answers _ hin.spLegal
  refine ⟨t.setRndIn none, congrArg (mapNext _) ht, ?_⟩
  exact (legalKeptByStep font _ t hin ht).of_eq rfl rfl rfl rfl rfl id

theorem keyResolveEvent_keeps_legal (font : Font) (k : Nibble) (s : State) (h : Legal font s) :
    Legal font (keyResolveEvent k s) := by
  unfold keyResolveEvent
  split
  · exact h.of_eq rfl rfl rfl rfl rfl fun hw => absurd hw Bool.false_ne_true
  · exact h

theorem applyEvent_keeps_legal (font : Font) (e : Event) (s : State) (h : Legal font s)
    (hp : ∀ prog, e = .reset prog → prog.length ≤ 3584) : ∃ t, applyEvent font e s = .next t ∧ Legal font t := by
  cases e with
  | reset prog => exact ⟨_, resetEvent_of_le font prog s (hp prog rfl), legal_afterReset font prog s (hp prog rfl)⟩
  | step b => exact stepEvent_keeps_legal font b s h
  | tick => exact ⟨_, rfl, h.of_eq rfl rfl rfl rfl rfl id⟩
  | keySet k16 => exact ⟨_, rfl, h.of_eq rfl rfl rfl rfl rfl id⟩
  | keyResolve k => exact ⟨_, rfl, keyResolveEvent_keeps_legal font k s h⟩

/-- Settles O60, by induction on the list of events: each event answers a legal state for the rest to start from. -/
theorem legalKeptByEvents : Obligations.LegalKeptByEvents := by
  intro font es
  induction es with
  | nil => exact fun s h _ => ⟨s, rfl, h⟩
  | cons e es ih =>
    intro s h hp
    obtain ⟨t, ht, hlegal⟩ := applyEvent_keeps_legal font e s h fun prog he => hp prog (by simp [he])
    obtain ⟨u, hu, hend⟩ := ih t hlegal fun prog hmem => hp prog (List.mem_cons_of_mem e hmem)
    refine ⟨u, ?_, hend⟩
    simp only [runEvents, ht]
    exact hu

/-- Settles O57. -/
theorem resetIsLegal : Obligations.ResetIsLegal := by
  refine ⟨?_, fun font prog s h => ⟨_, resetEvent_of_le font prog s h, legal_afterReset font prog s h⟩⟩
  have h := legal_afterReset defaultFont [] State.reset (Nat.zero_le _)
  rwa [State.afterReset_default] at h

/-- Settles O47. -/
theorem resetStateValues : Obligations.ResetStateValues := by
  have hfont : ∀ k : Fin 80, State.reset.mem.readByte k.val = defaultFont[k] := resetIsLegal.1.fontKept
  have hevent : applyEvent defaultFont (.reset []) State.reset = .next State.reset :=
    (resetEvent_of_le _ _ _ (Nat.zero_le _)).trans (congrArg _ State.afterReset_default)
  exact ⟨State.reset_reg, rfl, rfl, rfl, fun k => Vector.getElem_replicate k.isLt, rfl, rfl, hfont,
    unlistedByte_of_ge, rfl, rfl, rfl, rfl, rfl, hevent⟩

/-! ## What no step writes (R31, R48) -/

/-- Settles O50, by the ways a step can go; the latches and the advance write neither. -/
theorem stepNeverWritesKeysOrFont : Obligations.StepNeverWritesKeysOrFont := by
  intro s t hs
  obtain ⟨-, rfl⟩ | ⟨-, -, rfl⟩ | ⟨-, he⟩ := step_cases s t hs
  · exact ⟨rfl, fun _ _ => rfl⟩
  · exact ⟨rfl, fun _ _ => rfl⟩
  · exact ⟨he.keys_eq, fun a ha => he.readByte_font ha⟩

/-! ## What an instruction's form lets it write (R12, R18, R19) -/

/-- What a completed CALL did. -/
theorem execCall_next {nnn : Addr12} {s t : State} (h : execCall nnn s = .next t) :
    (s.sp.toNat = 16 ∧ t = s.raise .stackOverflow) ∨
      ∃ hlt : s.sp.toNat < 16, t = (s.pushPc hlt).setPc (zextAddr nnn) := by
  unfold execCall at h
  split at h
  · next hsp => cases h; exact .inl ⟨by rw [hsp]; rfl, rfl⟩
  · split at h
    · next hlt => cases h; exact .inr ⟨hlt, rfl⟩
    · cases h

/-- What a completed RET did. -/
theorem execRet_next {s t : State} (h : execRet s = .next t) :
    (s.sp.toNat = 0 ∧ t = s.raise .stackUnderflow) ∨
      (s.sp.toNat ≠ 0 ∧ ∃ hlt : (s.sp - 1#8).toNat < 16, t = s.popPc hlt) := by
  unfold execRet at h
  split at h
  · next hsp => cases h; exact .inl ⟨by rw [hsp]; rfl, rfl⟩
  · next hsp =>
    split at h
    · next hlt => cases h; exact .inr ⟨by bv_omega, hlt, rfl⟩
    · cases h

/-- A bulk load leaves the timers and the fault latch alone (R126). -/
theorem State.loadRegs_frame (s : State) (x : Nibble) :
    (s.loadRegs x).dt = s.dt ∧ (s.loadRegs x).st = s.st ∧ (s.loadRegs x).fault = s.fault := by
  obtain ⟨v, hv⟩ := s.loadRegs_eq x
  rw [hv]; exact ⟨rfl, rfl, rfl⟩

/-- Settles O51, by the instruction; a fault and a skip write neither timer. -/
theorem onlyTheirInstructionsChangeTimers : Obligations.OnlyTheirInstructionsChangeTimers := by
  intro i s t h
  cases i with
  | call nnn => obtain ⟨-, rfl⟩ | ⟨_, rfl⟩ := execCall_next h <;> exact ⟨fun _ => rfl, fun _ => rfl⟩
  | ret => obtain ⟨-, rfl⟩ | ⟨-, _, rfl⟩ := execRet_next h <;> exact ⟨fun _ => rfl, fun _ => rfl⟩
  | drw | ldB | stRegs =>
    obtain ⟨c, -, rfl⟩ | ⟨-, rfl⟩ := s.faultOr_cases _ _ t h <;> exact ⟨fun _ => rfl, fun _ => rfl⟩
  | ldRegs x =>
    obtain ⟨hdt, hst, -⟩ := s.loadRegs_frame x
    obtain ⟨c, -, rfl⟩ | ⟨-, rfl⟩ := s.faultOr_cases _ _ t h
    · exact ⟨fun _ => rfl, fun _ => rfl⟩
    · exact ⟨fun _ => hdt, fun _ => hst⟩
  | seImm | sneImm | seReg | sneReg | skp | sknp =>
    cases h; exact ⟨fun _ => s.skipIf_dt _, fun _ => s.skipIf_st _⟩
  | ldDtVx x => cases h; exact ⟨fun hne => absurd rfl (hne x), fun _ => rfl⟩
  | ldStVx x => cases h; exact ⟨fun _ => rfl, fun hne => absurd rfl (hne x)⟩
  | _ => cases h; exact ⟨fun _ => rfl, fun _ => rfl⟩

/-- Settles O52, by the instruction: its form is what it writes, and a fault and a skip write no register. -/
theorem registersWrittenByFormOnly : Obligations.RegistersWrittenByFormOnly := by
  intro i s t r h hr
  cases i with
  | ldImm x | addImm x | ldReg x | or x | and x | xor x | ldVxDt x | rnd x =>
    cases h
    exact State.reg_setReg_of_ne _ x r _ (of_decide_eq_false hr)
  | addReg x y | sub x y | subn x y =>
    cases h
    obtain ⟨hx, hflag⟩ := not_or.1 (of_decide_eq_false hr)
    rw [State.reg_writeFlagLast, if_neg hflag, if_neg hx]
  | shr x y | shl x y =>
    cases h
    obtain ⟨hx, hflag⟩ := not_or.1 (of_decide_eq_false hr)
    rw [State.reg_shiftFlagFirst, if_neg hx, if_neg hflag]
  | drw x y n =>
    obtain ⟨c, -, rfl⟩ | ⟨-, rfl⟩ := s.faultOr_cases _ _ t h
    · rfl
    · exact State.reg_setReg_of_ne _ flagReg r _ (of_decide_eq_false hr)
  | ldRegs x =>
    obtain ⟨c, -, rfl⟩ | ⟨-, rfl⟩ := s.faultOr_cases _ _ t h
    · rfl
    · rw [State.reg_loadRegs, if_neg (of_decide_eq_false hr)]
  | ldB x | stRegs x => obtain ⟨c, -, rfl⟩ | ⟨-, rfl⟩ := s.faultOr_cases _ _ t h <;> rfl
  | call nnn => obtain ⟨-, rfl⟩ | ⟨_, rfl⟩ := execCall_next h <;> rfl
  | ret => obtain ⟨-, rfl⟩ | ⟨-, _, rfl⟩ := execRet_next h <;> rfl
  | seImm | sneImm | seReg | sneReg | skp | sknp => cases h; exact s.skipIf_reg _ r
  | _ => cases h; rfl

/-! ## Faults (R26, R161, R164) -/

/-- The latch after a checked access. -/
theorem State.faultOr_fault {s t u : State} {f : Option FaultCode} (h : s.faultOr f u = .next t)
    (hu : u.fault = .none) : t.fault = f.getD .none := by
  obtain ⟨c, rfl, rfl⟩ | ⟨rfl, rfl⟩ := s.faultOr_cases u f t h
  · rfl
  · exact hu

/-- The fault of a load of `n` bytes as R161 states it. -/
theorem State.loadFault_getD (s : State) (n : Nat) :
    (s.loadFault n).getD .none = if 1 ≤ n ∧ 4096 < s.i.toNat + n then .memRange else .none := by
  have hrange : (1 ≤ n ∧ 4095 < s.i.toNat + (n - 1)) ↔ (1 ≤ n ∧ 4096 < s.i.toNat + n) := by omega
  simp only [State.loadFault_eq, hrange]
  split <;> rfl

/-- The fault of a store to `I` up to `I + k` as R161 states it. -/
theorem State.storeFault_getD (s : State) (k : Nat) : (s.storeFault (k + 1)).getD .none =
    if 4095 < s.i.toNat + k then .memRange else if s.i.toNat < 80 then .writeProtect else .none := by
  have hrange : (1 ≤ k + 1 ∧ 4095 < s.i.toNat + (k + 1 - 1)) ↔ 4095 < s.i.toNat + k := by omega
  simp only [State.storeFault_eq, hrange]
  split <;> [rfl; (split <;> rfl)]

/-- The latch after an instruction executed with none set is the one the table of R161 gives. -/
theorem exec_fault_eq_executionFault {i : Instr} {s t : State} (h : exec i s = .next t) (hf : s.fault = .none) :
    t.fault = executionFault i s := by
  cases i with
  | call nnn =>
    obtain ⟨hsp, rfl⟩ | ⟨hlt, rfl⟩ := execCall_next h
    · exact (if_pos hsp).symm
    · exact hf.trans (if_neg hlt.ne).symm
  | ret =>
    obtain ⟨hsp, rfl⟩ | ⟨hsp, _, rfl⟩ := execRet_next h
    · exact (if_pos hsp).symm
    · exact hf.trans (if_neg hsp).symm
  | drw x y n => exact (State.faultOr_fault h hf).trans (s.loadFault_getD n.toNat)
  | ldB x =>
    have hrange : 4093 < s.i.toNat ↔ 4095 < s.i.toNat + 2 := by omega
    simp only [executionFault, hrange]
    exact (State.faultOr_fault h hf).trans (s.storeFault_getD 2)
  | stRegs x => exact (State.faultOr_fault h hf).trans (s.storeFault_getD x.toNat)
  | ldRegs x =>
    have hrange : 4095 < s.i.toNat + x.toNat ↔ 1 ≤ x.toNat + 1 ∧ 4096 < s.i.toNat + (x.toNat + 1) := by omega
    simp only [executionFault, hrange]
    exact (State.faultOr_fault h ((s.loadRegs_frame x).2.2.trans hf)).trans (s.loadFault_getD (x.toNat + 1))
  | seImm | sneImm | seReg | sneReg | skp | sknp => cases h; exact (s.skipIf_fault _).trans hf
  | _ => cases h; exact hf

/-- The table's conditions do not look at `PC`. -/
theorem executionFault_advance (i : Instr) (s : State) : executionFault i s.advance = executionFault i s := by
  cases i <;> rfl

theorem safeStep_iff_of_next {s t : State} (h : step s = .next t) : SafeStep s ↔ t.fault = .none := by
  unfold SafeStep
  simp [h]

/-- Where a step executes, it is safe exactly when the decoded instruction, if any, has no fault of R161. -/
theorem safeStep_iff_of_runs {s : State} {w : Word} (hr : s.Runs) (hw : s.WordAtPc w) (hsp : s.sp.toNat ≤ 16) :
    SafeStep s ↔ ∀ i, decodeWord w = some i → executionFault i s = .none := by
  have hstep := step_of_runs s hr
  rw [← (s.wordAtPc_iff w).1 hw] at hstep
  cases hd : decodeWord w with
  | none =>
    rw [hd] at hstep
    simpa using (safeStep_iff_of_next hstep).2 hr.1
  | some i =>
    rw [hd] at hstep
    obtain ⟨t, ht⟩ := exec_answers i s.advance hsp
    have hfault : t.fault = executionFault i s.advance := exec_fault_eq_executionFault ht hr.1
    rw [safeStep_iff_of_next (hstep.trans ht), hfault, executionFault_advance]
    simp

/-- Settles O59, by the gate, the fetch check and the decoded instruction. -/
theorem legalStepAlwaysAnswers : Obligations.LegalStepAlwaysAnswers := by
  intro font s w h hw
  refine ⟨step_answers s h.spLegal, ?_⟩
  cases hg : s.gated with
  | true =>
    rw [safeStep_iff_of_next (step_of_gated s hg)]
    have := s.gated_iff.1 hg
    tauto
  | false =>
    obtain ⟨hf, hwait⟩ := s.gated_false_iff.1 hg
    cases hb : s.badFetch with
    | true =>
      rw [safeStep_iff_of_next (step_of_badFetch s hg hb), State.raise_fault]
      have hpc := s.badFetch_iff.1 hb
      simp only [reduceCtorEq, hwait, Bool.false_eq_true, false_or, false_iff]
      omega
    | false =>
      have hr := s.runs_iff.2 ⟨hg, hb⟩
      rw [safeStep_iff_of_runs hr hw h.spLegal]
      obtain ⟨-, -, heven, hle⟩ := hr
      simp [hf, hwait, heven, hle]

/-! ## What the host events write (R31, R165, R180) -/

theorem Part.Same.refl (p : Part) (s : State) : p.Same s s := by
  cases p with
  | v | stack | mem => exact fun _ => rfl
  | rnd => exact ⟨rfl, rfl⟩
  | _ => rfl

theorem Part.Same.trans {p : Part} {s t u : State} (h : p.Same s t) (h' : p.Same t u) : p.Same s u := by
  cases p with
  | v | stack | mem => exact fun k => (h' k).trans (h k)
  | rnd => exact ⟨h'.1.trans h.1, h'.2.trans h.2⟩
  | _ => exact Eq.trans h' h

theorem OnlyChanges.refl (ps : List Part) (s : State) : OnlyChanges ps s s := fun p _ => Part.Same.refl p s

/-- Two changes after one another change what either does. -/
theorem OnlyChanges.trans {ps qs : List Part} {s t u : State} (h : OnlyChanges ps s t) (h' : OnlyChanges qs t u) :
    OnlyChanges (ps ++ qs) s u := fun p hp =>
  (h p fun hm => hp (List.mem_append_left qs hm)).trans (h' p fun hm => hp (List.mem_append_right ps hm))

theorem onlyChanges_setReg (s : State) (x : Nibble) (b : Byte) : OnlyChanges [.v] s (s.setReg x b) := by
  intro p hp
  cases p <;> simp_all [Part.Same]

theorem onlyChanges_setDt (s : State) (b : Byte) : OnlyChanges [.dt] s (s.setDt b) := by
  intro p hp
  cases p <;> simp_all [Part.Same]

theorem onlyChanges_setSt (s : State) (b : Byte) : OnlyChanges [.st] s (s.setSt b) := by
  intro p hp
  cases p <;> simp_all [Part.Same]

theorem onlyChanges_setKeys (s : State) (k : BitVec 16) : OnlyChanges [.keys] s (s.setKeys k) := by
  intro p hp
  cases p <;> simp_all [Part.Same]

theorem onlyChanges_resume (s : State) : OnlyChanges [.wait] s s.resume := by
  intro p hp
  cases p <;> simp_all [Part.Same]

theorem onlyChanges_setRndIn (s : State) (b : Option Byte) : OnlyChanges [.rnd] s (s.setRndIn b) := by
  intro p hp
  cases p <;> simp_all [Part.Same]

theorem onlyChanges_tickEvent (s : State) : OnlyChanges [.dt, .st] s (tickEvent s) :=
  (onlyChanges_setDt s _).trans (onlyChanges_setSt _ _)

/-- Both halves of R152: the key lands in `V[WAITX]`, or the event is ignored. -/
theorem keyResolveEvent_frame (k : Nibble) (s : State) :
    RegsKeptBut [s.waitx] s (keyResolveEvent k s) ∧ OnlyChanges [.v, .wait] s (keyResolveEvent k s) := by
  unfold keyResolveEvent
  split
  · refine ⟨fun r hr => ?_, (onlyChanges_setReg s _ _).trans (onlyChanges_resume _)⟩
    exact State.reg_setReg_of_ne s s.waitx r _ (by simpa using hr)
  · exact ⟨fun _ _ => rfl, OnlyChanges.refl _ s⟩

/-- Settles O48, by the event. -/
theorem eventsWriteOnlyTheirOwnState : Obligations.EventsWriteOnlyTheirOwnState := by
  intro font e s t h
  refine ⟨?_, ?_, ?_⟩
  · rintro rfl
    cases h; exact onlyChanges_tickEvent s
  · rintro ⟨k16, rfl⟩
    cases h; exact onlyChanges_setKeys s k16
  · rintro ⟨k, rfl⟩
    cases h; exact keyResolveEvent_frame k s

/-- Settles O55, by the event: a halted step is gated, and the other events do not own `FAULT`. -/
theorem faultIsSticky : Obligations.FaultIsSticky := by
  intro font e s t hf h hreset
  cases e with
  | reset prog => exact absurd rfl (hreset prog)
  | step b =>
    have hstep := stepEvent_of_gated b s (s.gated_iff.2 (.inl hf))
    cases hstep.symm.trans h
    exact ⟨rfl, fun _ => onlyChanges_setRndIn s _⟩
  | tick | keySet => cases h; exact ⟨rfl, fun ⟨_, hb⟩ => nomatch hb⟩
  | keyResolve k =>
    cases h
    exact ⟨(keyResolveEvent_frame k s).2 .fault (by decide), fun ⟨_, hb⟩ => nomatch hb⟩

end Sys2Proof.Machine

/-! # Part 20_memory: a store is seen by the very next fetch (spec/20_memory.md R53) -/

namespace Sys2Proof.Machine

/-- A store inside the writable cells takes no fault (R47, R48). -/
theorem State.storeFault_eq_none (s : State) (count : Nat) (h0 : 80 ≤ s.i.toNat) (h1 : s.i.toNat + count ≤ 4096) :
    s.storeFault count = Option.none := by
  rw [State.storeFault_eq, if_neg (by omega), if_neg (by omega)]

/-- LD [I], Vx inside the writable cells completes (R125). -/
theorem exec_stRegs_of_writable (x : Nibble) (s : State) (h0 : 80 ≤ s.i.toNat) (h1 : s.i.toNat + x.toNat ≤ 4095) :
    exec (.stRegs x) s = .next (s.setMem (s.mem.writeBytes (s.dataAddr 0) (s.regsTo x))) := by
  show s.faultOr (s.storeFault (x.toNat + 1)) _ = _
  rw [s.storeFault_eq_none _ h0 (by omega), State.faultOr_none]

/-- After a bulk store that fits into memory, `MEM[I + k]` is `V[k]` (R125). -/
theorem State.readByte_writeBytes_regsTo (s : State) (x : Nibble) (k : Nat) (hk : k ≤ x.toNat)
    (h : s.i.toNat + x.toNat ≤ 4095) :
    (s.mem.writeBytes (s.dataAddr 0) (s.regsTo x)).readByte (s.i.toNat + k) = s.reg (BitVec.ofNat 4 k) := by
  have hlen := s.length_regsTo x
  rw [State.dataAddr_eq, Nat.add_zero, Memory.readByte_writeBytes _ _ _ _ (by omega), if_pos (by omega),
    Nat.add_sub_cancel_left, s.getD_regsTo x k hk]

/-- A step that executes, by the word at `PC` (R82, R83). -/
theorem step_of_decodeWord {s : State} {w : Word} {i : Instr} (hr : s.Runs) (hw : s.WordAtPc w)
    (hd : decodeWord w = some i) : step s = exec i s.advance := by
  rw [step_of_runs s hr, ← (s.wordAtPc_iff w).1 hw, hd]

/-- Settles O33: the store completes, `V0` and `V1` then stand at `PC` and `PC + 1`, and the latches are as before. -/
theorem storedWordIsFetchedNext : Obligations.StoredWordIsFetchedNext := by
  intro x s w i hx h80 hfit hi heven hfault hwait hw hd
  refine ⟨_, exec_stRegs_of_writable x s h80 hfit, step_of_decodeWord ⟨hfault, hwait, heven, ?_⟩ ?_ hd⟩
  · rw [State.setMem_pc, ← hi]; omega
  · have hhigh := s.readByte_writeBytes_regsTo x 0 (by omega) hfit
    have hlow := s.readByte_writeBytes_regsTo x 1 hx hfit
    rw [Nat.add_zero] at hhigh
    rw [State.WordAtPc, State.setMem_mem, State.setMem_pc, ← hi, hhigh, hlow]
    exact hw

end Sys2Proof.Machine

/-! # Part 30_encoding: decoder, encoder and the table of R66 agree (spec/30_encoding.md R60 to R72) -/

namespace Sys2Proof

/-! ## Decoding an encoded instruction -/

/-- The decoder is a left inverse of the encoder, family by family. -/
@[simp] theorem decodeWord_encode (i : Instr) : decodeWord (encode i) = some i := by
  cases i with
  | cls | ret => simp [encode, decodeWord, decode0]
  | jp | call | ldI | jpV0 => simp [encode, decodeWord]
  | seImm | sneImm | ldImm | addImm | rnd => simp [encode, decodeWord]
  | seReg | sneReg | drw => simp [encode, decodeWord]
  | ldReg | or | and | xor | addReg | sub | shr | subn | shl => simp [encode, decodeWord, decode8]
  | skp | sknp => simp [encode, decodeWord, decodeE]
  | ldVxDt | ldVxK | ldDtVx | ldStVx | addI | ldF | ldB | stRegs | ldRegs => simp [encode, decodeWord, decodeF]

/-- The bytes of an instruction decode to it, whatever follows them (R40, R61). -/
theorem decodeBytes_encodeBytes (i : Instr) (rest : List Byte) :
    decodeBytes (encodeBytes i ++ rest) = .ok (i, rest) := by
  rw [encodeBytes, List.cons_append, List.cons_append, List.nil_append, decodeBytes_two, wordOfBytes_bytes,
    decodeWord_encode]

/-- Settles O1, by the family of the instruction. -/
theorem decodeOfEncode : Obligations.DecodeOfEncode :=
  fun i rest => ⟨decodeWord_encode i, decodeBytes_encodeBytes i rest⟩

/-! ## The dispatch of R64 and R65: which families hold one instruction, and which suffixes the others define -/

/-- The families that hold exactly one instruction (R64). -/
def singleFamilies : List Nibble :=
  [0x1#4, 0x2#4, 0x3#4, 0x4#4, 0x5#4, 0x6#4, 0x7#4, 0x9#4, 0xA#4, 0xB#4, 0xC#4, 0xD#4]

/-- The low bytes of family 0 (R66). -/
def suffixes0 : List Byte := [0xE0#8, 0xEE#8]

/-- The low nibbles of family 8 (R66). -/
def suffixes8 : List Nibble := [0x0#4, 0x1#4, 0x2#4, 0x3#4, 0x4#4, 0x5#4, 0x6#4, 0x7#4, 0xE#4]

/-- The low bytes of family 0xE (R66). -/
def suffixesE : List Byte := [0x9E#8, 0xA1#8]

/-- The low bytes of family 0xF (R66). -/
def suffixesF : List Byte := [0x07#8, 0x0A#8, 0x15#8, 0x18#8, 0x1E#8, 0x29#8, 0x33#8, 0x55#8, 0x65#8]

/-- The row of a family without a sub-dispatch. -/
def familyRow (o : Nibble) : OpcodeRow := ⟨formatA o 0#12, 0xF000#16⟩

/-- The row of a low nibble in a family that sub-dispatches on it. -/
def nibbleRow (o n : Nibble) : OpcodeRow := ⟨formatXYN o 0#4 0#4 n, 0xF00F#16⟩

/-- The row of a low byte in a family that sub-dispatches on it. -/
def byteRow (o : Nibble) (b : Byte) : OpcodeRow := ⟨formatXI o 0#4 b, 0xF0FF#16⟩

/-- The table of R66 holds the rows of that dispatch and no others. -/
theorem opcodeTable_rows : ∀ r ∈ opcodeTable,
    (∃ o ∈ singleFamilies, r = familyRow o) ∨ (∃ b ∈ suffixes0, r = byteRow 0x0#4 b) ∨
    (∃ n ∈ suffixes8, r = nibbleRow 0x8#4 n) ∨ (∃ b ∈ suffixesE, r = byteRow 0xE#4 b) ∨
    (∃ b ∈ suffixesF, r = byteRow 0xF#4 b) := by
  decide

/-- Every top nibble is a family of R64. -/
theorem family_cases : ∀ o : Nibble, o ∈ singleFamilies ∨ o = 0x0#4 ∨ o = 0x8#4 ∨ o = 0xE#4 ∨ o = 0xF#4 := by
  decide

/-- The word is in a family that sub-dispatches, and its suffix is none of the family's (R67). -/
def UndefinedSuffix (w : Word) : Prop :=
  (topNibble w = 0x0#4 ∧ fieldNN w ∉ suffixes0) ∨ (topNibble w = 0x8#4 ∧ fieldN w ∉ suffixes8) ∨
  (topNibble w = 0xE#4 ∧ fieldNN w ∉ suffixesE) ∨ (topNibble w = 0xF#4 ∧ fieldNN w ∉ suffixesF)

/-- The word decodes to an instruction of the row, whose canonical word keeps the bits that matter (R62, R66, R68). -/
def DecodesInRow (w : Word) (r : OpcodeRow) : Prop :=
  ∃ i, decodeWord w = some i ∧ i.row = r ∧ encode i = w &&& i.careMask

/-! ## The families of the decoder -/

section
variable {w : Word}

theorem decodeWord_family0 (ho : topNibble w = 0x0#4) : decodeWord w = decode0 w := by rw [decodeWord, ho]; rfl
theorem decodeWord_family8 (ho : topNibble w = 0x8#4) : decodeWord w = decode8 w := by rw [decodeWord, ho]; rfl
theorem decodeWord_familyE (ho : topNibble w = 0xE#4) : decodeWord w = decodeE w := by rw [decodeWord, ho]; rfl
theorem decodeWord_familyF (ho : topNibble w = 0xF#4) : decodeWord w = decodeF w := by rw [decodeWord, ho]; rfl

/-- Families 0, 8, 0xE and 0xF reject every suffix they do not define (R67). -/
theorem decodeWord_of_undefinedSuffix (h : UndefinedSuffix w) : decodeWord w = none := by
  obtain ⟨ho, hs⟩ | ⟨ho, hs⟩ | ⟨ho, hs⟩ | ⟨ho, hs⟩ := h
  · rw [decodeWord_family0 ho]; simp_all [decode0, suffixes0]
  · rw [decodeWord_family8 ho]; simp_all [decode8, suffixes8]
  · rw [decodeWord_familyE ho]; simp_all [decodeE, suffixesE]
  · rw [decodeWord_familyF ho]; simp_all [decodeF, suffixesF]

end

/-! ## A word laid out again from its own fields -/

section
variable {w : Word} {o : Nibble}

theorem formatA_of_fields (ho : topNibble w = o) : formatA o (fieldNNN w) = w &&& 0xFFFF#16 := by
  rw [← ho, formatA_fields]; exact BitVec.and_allOnes.symm

theorem formatXI_of_fields {b : Byte} (ho : topNibble w = o) (hb : fieldNN w = b) :
    formatXI o (fieldX w) b = w &&& 0xFFFF#16 := by
  rw [← ho, ← hb, formatXI_fields]; exact BitVec.and_allOnes.symm

theorem formatXYN_of_fields {n : Nibble} (ho : topNibble w = o) (hn : fieldN w = n) :
    formatXYN o (fieldX w) (fieldY w) n = w &&& 0xFFFF#16 := by
  rw [← ho, ← hn, formatXYN_fields]; exact BitVec.and_allOnes.symm

/-- Families 5 and 9 ignore the low nibble (R65, R68). -/
theorem formatXYN_zero_of_fields (ho : topNibble w = o) :
    formatXYN o (fieldX w) (fieldY w) 0#4 = w &&& 0xFFF0#16 := by
  have hmask : 0xFFF0#16 = formatXYN (BitVec.allOnes 4) (BitVec.allOnes 4) (BitVec.allOnes 4) 0#4 := rfl
  conv_rhs => rw [← formatXYN_fields w, ho, hmask, formatXYN_and]
  simp only [BitVec.and_allOnes, BitVec.and_zero]

/-- Family 0 ignores the nibble `w[11:8]` (R65, R68). -/
theorem formatXI_zero_of_fields {b : Byte} (ho : topNibble w = o) (hb : fieldNN w = b) :
    formatXI o 0#4 b = w &&& 0xF0FF#16 :=
  ((maskF0FF_iff w o b).2 ⟨ho, hb⟩).symm

end

/-! ## Every listed family and suffix decodes in its row -/

section
variable {w : Word}

theorem decodesInRow_single {o : Nibble} (hmem : o ∈ singleFamilies) (ho : topNibble w = o) :
    DecodesInRow w (familyRow o) := by
  have hd := decodeWord.eq_def w
  rw [ho] at hd
  unfold singleFamilies at hmem
  fin_cases hmem
  · exact ⟨_, hd, rfl, formatA_of_fields ho⟩
  · exact ⟨_, hd, rfl, formatA_of_fields ho⟩
  · exact ⟨_, hd, rfl, formatXI_of_fields ho rfl⟩
  · exact ⟨_, hd, rfl, formatXI_of_fields ho rfl⟩
  · exact ⟨_, hd, rfl, formatXYN_zero_of_fields ho⟩
  · exact ⟨_, hd, rfl, formatXI_of_fields ho rfl⟩
  · exact ⟨_, hd, rfl, formatXI_of_fields ho rfl⟩
  · exact ⟨_, hd, rfl, formatXYN_zero_of_fields ho⟩
  · exact ⟨_, hd, rfl, formatA_of_fields ho⟩
  · exact ⟨_, hd, rfl, formatA_of_fields ho⟩
  · exact ⟨_, hd, rfl, formatXI_of_fields ho rfl⟩
  · exact ⟨_, hd, rfl, formatXYN_of_fields ho rfl⟩

theorem decodesInRow_family0 {b : Byte} (hmem : b ∈ suffixes0) (ho : topNibble w = 0x0#4) (hb : fieldNN w = b) :
    DecodesInRow w (byteRow 0x0#4 b) := by
  have hd := decodeWord_family0 ho
  rw [decode0, hb] at hd
  unfold suffixes0 at hmem
  fin_cases hmem <;> exact ⟨_, hd, rfl, formatXI_zero_of_fields ho hb⟩

theorem decodesInRow_family8 {n : Nibble} (hmem : n ∈ suffixes8) (ho : topNibble w = 0x8#4) (hn : fieldN w = n) :
    DecodesInRow w (nibbleRow 0x8#4 n) := by
  have hd := decodeWord_family8 ho
  rw [decode8, hn] at hd
  unfold suffixes8 at hmem
  fin_cases hmem <;> exact ⟨_, hd, rfl, formatXYN_of_fields ho hn⟩

theorem decodesInRow_familyE {b : Byte} (hmem : b ∈ suffixesE) (ho : topNibble w = 0xE#4) (hb : fieldNN w = b) :
    DecodesInRow w (byteRow 0xE#4 b) := by
  have hd := decodeWord_familyE ho
  rw [decodeE, hb] at hd
  unfold suffixesE at hmem
  fin_cases hmem <;> exact ⟨_, hd, rfl, formatXI_of_fields ho hb⟩

theorem decodesInRow_familyF {b : Byte} (hmem : b ∈ suffixesF) (ho : topNibble w = 0xF#4) (hb : fieldNN w = b) :
    DecodesInRow w (byteRow 0xF#4 b) := by
  have hd := decodeWord_familyF ho
  rw [decodeF, hb] at hd
  unfold suffixesF at hmem
  fin_cases hmem <;> exact ⟨_, hd, rfl, formatXI_of_fields ho hb⟩

/-- A word decodes in every row of the table that it selects (R66). -/
theorem decodesInRow_of_selects {r : OpcodeRow} (hr : r ∈ opcodeTable) (h : w &&& r.mask = r.pattern) :
    DecodesInRow w r := by
  obtain ⟨o, hmem, rfl⟩ | ⟨b, hmem, rfl⟩ | ⟨n, hmem, rfl⟩ | ⟨b, hmem, rfl⟩ | ⟨b, hmem, rfl⟩ := opcodeTable_rows r hr
  · exact decodesInRow_single hmem ((maskF000_iff w o).1 h)
  · obtain ⟨ho, hb⟩ := (maskF0FF_iff w _ b).1 h
    exact decodesInRow_family0 hmem ho hb
  · obtain ⟨ho, hn⟩ := (maskF00F_iff w _ n).1 h
    exact decodesInRow_family8 hmem ho hn
  · obtain ⟨ho, hb⟩ := (maskF0FF_iff w _ b).1 h
    exact decodesInRow_familyE hmem ho hb
  · obtain ⟨ho, hb⟩ := (maskF0FF_iff w _ b).1 h
    exact decodesInRow_familyF hmem ho hb

/-- A word whose suffix is not undefined selects a row and decodes in it (R64, R65). -/
theorem decodesInRow_of_not_undefinedSuffix (h : ¬ UndefinedSuffix w) :
    ∃ r, w &&& r.mask = r.pattern ∧ DecodesInRow w r := by
  simp only [UndefinedSuffix, not_or, not_and, not_not] at h
  obtain ⟨h0, h8, hE, hF⟩ := h
  obtain hmem | ho | ho | ho | ho := family_cases (topNibble w)
  · exact ⟨_, (maskF000_iff w _).2 rfl, decodesInRow_single hmem rfl⟩
  · exact ⟨_, (maskF0FF_iff w _ _).2 ⟨ho, rfl⟩, decodesInRow_family0 (h0 ho) ho rfl⟩
  · exact ⟨_, (maskF00F_iff w _ _).2 ⟨ho, rfl⟩, decodesInRow_family8 (h8 ho) ho rfl⟩
  · exact ⟨_, (maskF0FF_iff w _ _).2 ⟨ho, rfl⟩, decodesInRow_familyE (hE ho) ho rfl⟩
  · exact ⟨_, (maskF0FF_iff w _ _).2 ⟨ho, rfl⟩, decodesInRow_familyF (hF ho) ho rfl⟩

theorem decodeWord_eq_none_iff : decodeWord w = none ↔ UndefinedSuffix w := by
  refine ⟨fun hnone => by_contra fun h => ?_, decodeWord_of_undefinedSuffix⟩
  obtain ⟨r, -, i, hd, -, -⟩ := decodesInRow_of_not_undefinedSuffix h
  exact nomatch hnone.symm.trans hd

/-- What a word that decodes says of its instruction: it selects the instruction's row (R66), and the canonical word is
the word with its ignored bits cleared (R68). -/
theorem decodeWord_some {i : Instr} (h : decodeWord w = some i) :
    w &&& i.row.mask = i.row.pattern ∧ encode i = w &&& i.careMask := by
  have hdef : ¬ UndefinedSuffix w := fun hu => nomatch h.symm.trans (decodeWord_of_undefinedSuffix hu)
  obtain ⟨_, hsel, j, hd, rfl, henc⟩ := decodesInRow_of_not_undefinedSuffix hdef
  cases h.symm.trans hd
  exact ⟨hsel, henc⟩

end

/-- Settles O2, by the families and suffixes of the decoder. -/
theorem encodeOfDecode : Obligations.EncodeOfDecode :=
  fun _ _ h => (decodeWord_some h).2

/-- Settles O3, by the rows of the dispatch; two rows of one word are the row of the one instruction it decodes to. -/
theorem wordSelectsRowByMask : Obligations.WordSelectsRowByMask := by
  refine ⟨rfl, fun w r hr => ⟨fun h => ?_, ?_⟩, fun w r q hr hq hwr hwq => ?_⟩
  · obtain ⟨i, hd, hrow, -⟩ := decodesInRow_of_selects hr h
    exact ⟨i, hd, hrow⟩
  · rintro ⟨i, hd, rfl⟩
    exact (decodeWord_some hd).1
  · obtain ⟨i, hi, rfl, -⟩ := decodesInRow_of_selects hr hwr
    obtain ⟨j, hj, rfl, -⟩ := decodesInRow_of_selects hq hwq
    cases hi.symm.trans hj
    rfl

/-! ## The unknown words, and the words the spec lists -/

section
variable (w : Word)

theorem topNibble_eq_iff (o : Nibble) : topNibble w = o ↔ w.toNat / 4096 = o.toNat := by
  rw [← BitVec.toNat_inj, toNat_topNibble]

theorem fieldN_eq_iff (n : Nibble) : fieldN w = n ↔ w.toNat % 16 = n.toNat := by
  rw [← BitVec.toNat_inj, toNat_fieldN]

theorem fieldNN_eq_iff (b : Byte) : fieldNN w = b ↔ w.toNat % 256 = b.toNat := by
  rw [← BitVec.toNat_inj, toNat_fieldNN]

/-- The low nibbles that family 8 leaves undefined (R67). -/
theorem fieldN_notMem_suffixes8 :
    fieldN w ∉ suffixes8 ↔ 8 ≤ w.toNat % 16 ∧ w.toNat % 16 ≤ 13 ∨ w.toNat % 16 = 15 := by
  simp only [suffixes8, List.mem_cons, List.not_mem_nil, or_false, fieldN_eq_iff, BitVec.toNat_ofNat]
  omega

end

/-- Settles O4, by reading the undefined suffixes as numbers. -/
theorem unknownWordsExactly : Obligations.UnknownWordsExactly := by
  intro w
  rw [decodeWord_eq_none_iff, UndefinedSuffix, fieldN_notMem_suffixes8]
  simp [topNibble_eq_iff, fieldNN_eq_iff, suffixes0, suffixesE, suffixesF]

/-- Settles O5, by running the decoder on each word. -/
theorem sourceWordsDecode : Obligations.SourceWordsDecode := by
  unfold Obligations.SourceWordsDecode
  decide

/-- Settles O6, by running the decoder on each word. -/
theorem vectorWordsDecode : Obligations.VectorWordsDecode := by
  unfold Obligations.VectorWordsDecode
  decide

end Sys2Proof

/-! # Part 40_step_cycle: gating, fetch, advance and what the step then runs (spec/40_step_cycle.md R80 to R86) -/

namespace Sys2Proof.Machine

/-! ## Frames of the updates a step makes -/

/-- A frame that lists more pieces says less. -/
theorem OnlyChanges.mono {ps qs : List Part} {s t : State} (h : OnlyChanges ps s t) (hsub : ps ⊆ qs) :
    OnlyChanges qs s t := fun p hp => h p fun hm => hp (hsub hm)

theorem onlyChanges_setPc (s : State) (w : Word) : OnlyChanges [.pc] s (s.setPc w) := by
  intro p hp
  cases p <;> simp_all [Part.Same]

theorem onlyChanges_advance (s : State) : OnlyChanges [.pc] s s.advance := onlyChanges_setPc s _

theorem onlyChanges_raise (s : State) (c : FaultCode) : OnlyChanges [.fault] s (s.raise c) := by
  intro p hp
  cases p <;> simp_all [Part.Same]

theorem onlyChanges_suspend (s : State) (x : Nibble) : OnlyChanges [.wait, .waitx] s (s.suspend x) := by
  intro p hp
  cases p <;> simp_all [Part.Same]

theorem onlyChanges_skipIf (s : State) (c : Bool) : OnlyChanges [.pc] s (s.skipIf c) := by
  cases c with
  | false => exact OnlyChanges.refl _ s
  | true => exact onlyChanges_advance s

/-! ## Skips in a whole step (R83, R94 to R97, R150, R151) -/

/-- An instruction with a skip condition is a skip on it. -/
theorem exec_of_skipCondition {i : Instr} {s : State} {c : Bool} (h : skipCondition i s = some c) :
    exec i s = .next (s.skipIf c) := by
  cases i with
  | seImm | sneImm | seReg | sneReg =>
    cases h
    simp only [exec, execSeImm, execSneImm, execSeReg, execSneReg, ne_eq, BitVec.toNat_inj]
  | skp | sknp =>
    cases h
    simp only [exec, execSkp, execSknp, State.keyDown, toNat_keyOf]
  | _ => cases h

/-- A skip condition does not look at `PC`. -/
theorem skipCondition_advance (i : Instr) (s : State) : skipCondition i s.advance = skipCondition i s := by
  cases i <;> rfl

/-- The advance and the skip after a fetch that succeeds do not wrap. -/
theorem State.toNat_advance_skipIf_pc (s : State) (c : Bool) (h : s.pc.toNat ≤ 4094) :
    (s.advance.skipIf c).pc.toNat = s.pc.toNat + if c then 4 else 2 := by
  have hadv := s.toNat_advance_pc h
  cases c with
  | false => exact hadv
  | true =>
    show (s.advance.pc + 2#16).toNat = s.pc.toNat + 4
    rw [BitVec.toNat_add, BitVec.toNat_ofNat]
    omega

/-- Settles O20: the step runs the skip in the advanced state, where its condition is the same. -/
theorem skipStepAdvancesFourOrTwo : Obligations.SkipStepAdvancesFourOrTwo := by
  intro s w i c hr hw hd hc
  have hexec : exec i s.advance = .next (s.advance.skipIf c) :=
    exec_of_skipCondition ((skipCondition_advance i s).trans hc)
  refine ⟨s.advance.skipIf c, (step_of_decodeWord hr hw hd).trans hexec, ?_, ?_⟩
  · obtain ⟨-, -, -, hle⟩ := hr
    exact s.toNat_advance_skipIf_pc c hle
  · exact ((onlyChanges_advance s).trans (onlyChanges_skipIf _ c)).mono (by simp)

/-! ## Steps while the core waits for a key (R80, R152) -/

/-- Halted or suspended, any number of step events leaves all but the `rnd` input as it was. -/
theorem runEvents_steps_of_gated (font : Font) (bs : List Byte) (s : State) (h : s.gated = true) :
    ∃ r, runEvents font (bs.map Event.step) s = .next (s.setRndIn r) := by
  induction bs generalizing s with
  | nil => exact ⟨s.rndIn, rfl⟩
  | cons b bs ih =>
    obtain ⟨r, hrun⟩ := ih (s.setRndIn none) h
    refine ⟨r, ?_⟩
    simp only [List.map_cons, runEvents, applyEvent, stepEvent_of_gated b s h]
    exact hrun

/-- `key_resolve` where the core waits (R152, second half). -/
theorem keyResolveEvent_of_wait (k : Nibble) (s : State) (h : s.wait = true) :
    keyResolveEvent k s = (s.setReg s.waitx (k.setWidth 8)).resume := if_pos h

/-- The register that waited then holds the number of the key. -/
theorem toNat_reg_keyResolveEvent (k : Nibble) (s : State) (h : s.wait = true) :
    ((keyResolveEvent k s).reg s.waitx).toNat = k.toNat := by
  rw [keyResolveEvent_of_wait k s h, State.resume_reg, State.reg_setReg_same, BitVec.toNat_setWidth_of_le (by decide)]

/-- Settles O41: the suspended state gates every step event, and `key_resolve` then completes the wait. -/
theorem keyWaitOutlastsSteps : Obligations.KeyWaitOutlastsSteps := by
  intro font x k s t bs h
  cases h
  have hgated : (s.suspend x).gated = true := (State.gated_iff _).2 (.inr rfl)
  obtain ⟨r, hsteps⟩ := runEvents_steps_of_gated font bs (s.suspend x) hgated
  obtain ⟨hregs, hframe⟩ := keyResolveEvent_frame k ((s.suspend x).setRndIn r)
  refine ⟨keyResolveEvent k ((s.suspend x).setRndIn r), ?_, toNat_reg_keyResolveEvent k _ rfl, ?_, hregs, ?_⟩
  · rw [runEvents_append, hsteps]; rfl
  · rw [keyResolveEvent_of_wait k _ rfl]; rfl
  · have hbefore := (onlyChanges_suspend s x).trans (onlyChanges_setRndIn _ r)
    exact (hbefore.trans hframe).mono (by decide)

/-! ## Faults of execution are precise (R85, R162) -/

/-- An effect leaves the fault latch alone, or it is one of the four faults of execution and nothing else. -/
theorem Effect.fault_cases {s t : State} (he : Effect s t) :
    t.fault = s.fault ∨ ∃ c, c ≠ .badFetch ∧ t = s.raise c := by
  cases he with
  | fault c h0 h1 => exact .inr ⟨c, h1, rfl⟩
  | _ => exact .inl rfl

/-- Settles O53, by the effects of an instruction: only a fault writes the latch, and it writes nothing else. -/
theorem faultsArePrecise : Obligations.FaultsArePrecise := by
  intro i s t hf h hne
  obtain hkept | ⟨c, hc, rfl⟩ := (exec_effect i s t h).fault_cases
  · exact absurd (hkept.trans hf) hne
  · exact ⟨onlyChanges_raise s c, hc⟩

/-! ## The ways a step goes (R80 to R86) -/

/-- Settles O7. -/
theorem stepRunsDecodedInstruction : Obligations.StepRunsDecodedInstruction := by
  intro s w i hr hw hd
  have hstep := step_of_decodeWord hr hw hd
  obtain ⟨-, -, -, hle⟩ := hr
  exact ⟨hstep, s.toNat_advance_pc hle, onlyChanges_advance s⟩

/-- Settles O8. -/
theorem gatedStepChangesNothing : Obligations.GatedStepChangesNothing := by
  intro s h
  have hg : s.gated = true := s.gated_iff.2 h
  exact ⟨step_of_gated s hg, fun _ b => ⟨_, stepEvent_of_gated b s hg, onlyChanges_setRndIn s _⟩⟩

/-- Settles O9: the fetch check fails behind an open gate, and `raise` writes the latch alone. -/
theorem badFetchLatchesCode : Obligations.BadFetchLatchesCode := by
  intro s hf hw hpc
  have hg : s.gated = false := s.gated_false_iff.2 ⟨hf, hw⟩
  have hb : s.badFetch = true := s.badFetch_iff.2 hpc
  have hraise := onlyChanges_raise s .badFetch
  refine ⟨⟨_, step_of_badFetch s hg hb, rfl, rfl, hraise⟩, fun _ b => ?_⟩
  exact ⟨_, stepEvent_of_badFetch b s hg hb, rfl, hraise.trans (onlyChanges_setRndIn _ _)⟩

/-- The step executes UNKNOWN exactly where a fetch that is made gives a word of no row (R86). -/
theorem State.stepsUnknown_iff {s : State} {w : Word} (hw : s.WordAtPc w) :
    s.stepsUnknown = true ↔ s.Runs ∧ decodeWord w = none := by
  rw [s.runs_iff, State.stepsUnknown, State.fetchBytes, decodeBytes_two, ← (s.wordAtPc_iff w).1 hw]
  cases decodeWord w <;> simp

/-- A step on a word of no row only advances (R86). -/
theorem step_of_unknown {s : State} {w : Word} (hr : s.Runs) (hw : s.WordAtPc w) (hd : decodeWord w = none) :
    step s = .next s.advance := by
  rw [step_of_runs s hr, ← (s.wordAtPc_iff w).1 hw, hd]

/-- Settles O10: step and step event end in the advanced state, and the pulse is that of a step on UNKNOWN. -/
theorem unknownOnlyAdvances : Obligations.UnknownOnlyAdvances := by
  intro s w hr hw hd
  have hpulse : s.stepsUnknown = true := (State.stepsUnknown_iff hw).2 ⟨hr, hd⟩
  have hstep : step s = .next s.advance := step_of_unknown hr hw hd
  have hevent : ∀ b, stepEvent b s = .next (s.advance.setRndIn none) := fun b =>
    congrArg (mapNext _) (step_of_unknown (s := s.setRndIn (some b)) hr hw hd)
  obtain ⟨-, -, -, hle⟩ := hr
  have hpc := s.toNat_advance_pc hle
  have hadv := onlyChanges_advance s
  exact ⟨⟨_, hstep, hpc, hadv⟩,
    fun _ b => ⟨hpulse, _, hevent b, hpc, hadv.trans (onlyChanges_setRndIn _ _)⟩⟩

end Sys2Proof.Machine

/-! # Part 41_control_flow: jumps, call, return and the register skips (spec/41_control_flow.md R90 to R97) -/

namespace Sys2Proof.Machine

/-! ## The call stack: frames of the push and the pop (R91, R92) -/

section
variable {s : State}

theorem onlyChanges_pushPc (h : s.sp.toNat < 16) : OnlyChanges [.sp, .stack] s (s.pushPc h) := by
  intro p hp
  cases p <;> simp_all [Part.Same]

theorem onlyChanges_popPc (h : (s.sp - 1#8).toNat < 16) : OnlyChanges [.pc, .sp] s (s.popPc h) := by
  intro p hp
  cases p <;> simp_all [Part.Same]

theorem stackKeptBut_pushPc (h : s.sp.toNat < 16) : StackKeptBut s.sp.toNat s (s.pushPc h) :=
  fun j hj => Vector.getElem_set_ne h j.isLt hj.symm

/-- The pop takes back the pushed `PC` and the old `SP`, wherever `PC` went in between; the dead entry stays. -/
theorem State.popPc_setPc_pushPc (w : Word) (h : s.sp.toNat < 16)
    (h' : (((s.pushPc h).setPc w).sp - 1#8).toNat < 16) :
    ((s.pushPc h).setPc w).popPc h' = { s with stack := s.stack.set s.sp.toNat s.pc h } := by
  simp only [State.popPc, State.setPc, State.pushPc, BitVec.add_sub_cancel, Vector.getElem_set_self]

theorem onlyChanges_pushPc_popPc (w : Word) (h : s.sp.toNat < 16)
    (h' : (((s.pushPc h).setPc w).sp - 1#8).toNat < 16) :
    OnlyChanges [.stack] s (((s.pushPc h).setPc w).popPc h') := by
  rw [State.popPc_setPc_pushPc]
  intro p hp
  cases p with
  | stack => exact absurd (List.mem_singleton_self _) hp
  | v | mem => exact fun _ => rfl
  | rnd => exact ⟨rfl, rfl⟩
  | _ => rfl

/-! ## CALL and RET by the value of `SP` (R91, R92) -/

/-- CALL with a free slot. -/
theorem exec_call_of_slot (nnn : Addr12) (h : s.sp.toNat < 16) :
    exec (.call nnn) s = .next ((s.pushPc h).setPc (zextAddr nnn)) := by
  obtain ⟨t, ht⟩ := execCall_answers nnn s h.le
  obtain ⟨hfull, -⟩ | ⟨_, rfl⟩ := execCall_next ht
  · omega
  · exact ht

/-- CALL with 16 entries. -/
theorem exec_call_of_full (nnn : Addr12) (h : s.sp.toNat = 16) :
    exec (.call nnn) s = .next (s.raise .stackOverflow) := by
  obtain ⟨t, ht⟩ := execCall_answers nnn s h.le
  obtain ⟨-, rfl⟩ | ⟨hlt, -⟩ := execCall_next ht
  · exact ht
  · omega

/-- RET with a live entry. -/
theorem exec_ret_of_live (h0 : 1 ≤ s.sp.toNat) (h : s.sp.toNat ≤ 16) :
    ∃ hlt : (s.sp - 1#8).toNat < 16, exec .ret s = .next (s.popPc hlt) := by
  obtain ⟨t, ht⟩ := execRet_answers s h
  obtain ⟨hempty, -⟩ | ⟨-, hlt, rfl⟩ := execRet_next ht
  · omega
  · exact ⟨hlt, ht⟩

/-- RET with no entry. -/
theorem exec_ret_of_empty (h : s.sp.toNat = 0) : exec .ret s = .next (s.raise .stackUnderflow) := by
  obtain ⟨t, ht⟩ := execRet_answers s (by omega)
  obtain ⟨-, rfl⟩ | ⟨hne, -⟩ := execRet_next ht
  · exact ht
  · exact absurd h hne

end

/-- Settles O15: CALL leaves a live entry, and the RET that pops it undoes all but the push into the stack. -/
theorem retUndoesCall : Obligations.RetUndoesCall := by
  intro nnn s h
  have hslot : s.sp.toNat < 16 := by omega
  have hsp := State.toNat_pushPc_sp hslot
  obtain ⟨hlt, hret⟩ := exec_ret_of_live (s := (s.pushPc hslot).setPc (zextAddr nnn))
    (by rw [State.setPc_sp]; omega) (by rw [State.setPc_sp]; omega)
  exact ⟨_, _, exec_call_of_slot nnn hslot, hret, stackKeptBut_pushPc hslot, onlyChanges_pushPc_popPc _ hslot hlt⟩

/-- Settles O12. -/
theorem jpSetsPc : Obligations.JpSetsPc := fun nnn s =>
  ⟨rfl, _, rfl, toNat_zextAddr nnn, onlyChanges_setPc s _⟩

/-- Settles O13, by whether slot `SP` exists. -/
theorem callPushesOrOverflows : Obligations.CallPushesOrOverflows := by
  refine fun nnn s => ⟨rfl, fun h => ?_, fun h => ?_⟩
  · have hslot : s.sp.toNat < 16 := by omega
    refine ⟨_, exec_call_of_slot nnn hslot, toNat_zextAddr nnn, State.toNat_pushPc_sp hslot, ?_,
      stackKeptBut_pushPc hslot, ?_⟩
    · rintro ⟨_, _⟩ rfl
      exact Vector.getElem_set_self hslot
    · exact ((onlyChanges_pushPc hslot).trans (onlyChanges_setPc _ _)).mono (by simp)
  · exact ⟨_, exec_call_of_full nnn h, rfl, rfl, onlyChanges_raise s _⟩

/-- Settles O14, by whether an entry is live. -/
theorem retPopsOrUnderflows : Obligations.RetPopsOrUnderflows := by
  refine fun s => ⟨rfl, fun h0 h => ?_, fun h => ?_⟩
  · obtain ⟨hlt, hret⟩ := exec_ret_of_live h0 h
    have hsp : (s.popPc hlt).sp.toNat = s.sp.toNat - 1 := by rw [State.popPc_sp]; bv_omega
    refine ⟨_, hret, hsp, ?_, onlyChanges_popPc hlt⟩
    rintro ⟨k, _⟩ (hk : k = s.sp.toNat - 1)
    obtain rfl : k = (s.sp - 1#8).toNat := hk.trans hsp.symm
    rfl
  · exact ⟨_, exec_ret_of_empty h, rfl, rfl, onlyChanges_raise s _⟩

/-- The exact target of JP V0 fits `PC` (R93). -/
theorem toNat_zextAddr_add_zextByte (nnn : Addr12) (b : Byte) :
    (zextAddr nnn + zextByte b).toNat = nnn.toNat + b.toNat := by
  have hn := nnn.isLt
  have hb := b.isLt
  rw [BitVec.toNat_add, toNat_zextAddr, toNat_zextByte]
  omega

/-- Settles O17. -/
theorem jpV0AddsRegisterZero : Obligations.JpV0AddsRegisterZero := fun nnn s =>
  ⟨rfl, _, rfl, toNat_zextAddr_add_zextByte nnn (s.reg 0), onlyChanges_setPc s _⟩

/-! ## Skips (R94 to R97) -/

/-- A skip on `P` adds 2 to `PC` where `P` holds, and changes nothing else. -/
theorem exec_skip_of_condition {i : Instr} {s : State} {P : Prop} [Decidable P]
    (h : skipCondition i s = some (decide P)) :
    ∃ t, exec i s = .next t ∧ t.pc = (if P then s.pc + 2 else s.pc) ∧ OnlyChanges [.pc] s t :=
  ⟨_, exec_of_skipCondition h, by simp, onlyChanges_skipIf s _⟩

/-- A skip on `¬ P` adds 2 to `PC` where `P` fails, and changes nothing else. -/
theorem exec_skip_of_not_condition {i : Instr} {s : State} {P : Prop} [Decidable P]
    (h : skipCondition i s = some (decide (¬ P))) :
    ∃ t, exec i s = .next t ∧ t.pc = (if P then s.pc else s.pc + 2) ∧ OnlyChanges [.pc] s t := by
  simpa only [ite_not] using exec_skip_of_condition h

/-- Settles O18: each of the four is a skip on its condition or on the negation. -/
theorem registerSkips : Obligations.RegisterSkips := fun _ _ _ _ =>
  ⟨⟨rfl, rfl, rfl, rfl⟩, exec_skip_of_condition rfl, exec_skip_of_not_condition rfl, exec_skip_of_condition rfl,
    exec_skip_of_not_condition rfl⟩

end Sys2Proof.Machine

/-! # Part 42_register_arithmetic: loads, arithmetic, logic and shifts (spec/42_register_arithmetic.md R100 to R111) -/

namespace Sys2Proof.Machine

/-! ## Frames of the register writes -/

section
variable (s : State) (x : Nibble)

theorem setReg_frame (b : Byte) : RegsKeptBut [x] s (s.setReg x b) ∧ OnlyChanges [.v] s (s.setReg x b) :=
  ⟨fun r hr => State.reg_setReg_of_ne s x r b (List.ne_of_not_mem_cons hr), onlyChanges_setReg s x b⟩

theorem onlyChanges_setReg_setReg (y : Nibble) (b c : Byte) : OnlyChanges [.v] s ((s.setReg x b).setReg y c) :=
  ((onlyChanges_setReg s x b).trans (onlyChanges_setReg _ y c)).mono (by simp)

theorem writeFlagLast_frame (b f : Byte) :
    RegsKeptBut [x, flagReg] s (s.writeFlagLast x b f) ∧ OnlyChanges [.v] s (s.writeFlagLast x b f) := by
  refine ⟨fun r hr => ?_, onlyChanges_setReg_setReg s x flagReg b f⟩
  obtain ⟨hx, hflag⟩ : r ≠ x ∧ r ≠ flagReg := by simpa using hr
  rw [State.reg_writeFlagLast, if_neg hflag, if_neg hx]

theorem shiftFlagFirst_frame (f : Byte) (g : Byte → Byte) :
    RegsKeptBut [x, flagReg] s (s.shiftFlagFirst x f g) ∧ OnlyChanges [.v] s (s.shiftFlagFirst x f g) := by
  refine ⟨fun r hr => ?_, onlyChanges_setReg_setReg s flagReg x f _⟩
  obtain ⟨hx, hflag⟩ : r ≠ x ∧ r ≠ flagReg := by simpa using hr
  rw [State.reg_shiftFlagFirst, if_neg hx, if_neg hflag]

/-! ## What the two write orders leave in `Vx` and in `VF` (D12, D15) -/

theorem State.reg_writeFlagLast_flag (b f : Byte) : (s.writeFlagLast x b f).reg flagReg = f := by
  rw [State.reg_writeFlagLast, if_pos rfl]

variable {x}

theorem State.reg_writeFlagLast_dest (hx : x ≠ flagReg) (b f : Byte) : (s.writeFlagLast x b f).reg x = b := by
  rw [State.reg_writeFlagLast, if_neg hx, if_pos rfl]

theorem State.reg_shiftFlagFirst_dest (hx : x ≠ flagReg) (f : Byte) (g : Byte → Byte) :
    (s.shiftFlagFirst x f g).reg x = g (s.reg x) := by
  rw [State.reg_shiftFlagFirst, if_pos rfl, if_neg hx]

theorem State.reg_shiftFlagFirst_flag (hx : x ≠ flagReg) (f : Byte) (g : Byte → Byte) :
    (s.shiftFlagFirst x f g).reg flagReg = f := by
  rw [State.reg_shiftFlagFirst, if_neg hx.symm, if_pos rfl]

/-- With `VF` as the destination the flag itself is shifted. -/
theorem State.reg_shiftFlagFirst_flag_dest (f : Byte) (g : Byte → Byte) :
    (s.shiftFlagFirst flagReg f g).reg flagReg = g f := by
  rw [State.reg_shiftFlagFirst, if_pos rfl, if_pos rfl]

end

/-! ## Loads, immediate addition and logic (R100 to R104, R110) -/

/-- Settles O21: both loads are one register write. -/
theorem loadImmediateAndCopy : Obligations.LoadImmediateAndCopy := fun x y nn s =>
  ⟨⟨rfl, rfl⟩, ⟨_, rfl, State.reg_setReg_same s x nn, setReg_frame s x nn⟩,
    _, rfl, State.reg_setReg_same s x (s.reg y), setReg_frame s x (s.reg y)⟩

/-- Settles O22. -/
theorem addImmediateWraps : Obligations.AddImmediateWraps := by
  refine fun x nn s => ⟨rfl, _, rfl, ?_, setReg_frame s x _⟩
  rw [State.reg_setReg_same, toNat_sumLow]

/-- Settles O23: each of the three is one register write, of the library's bitwise operation. -/
theorem bitwiseOperations : Obligations.BitwiseOperations := by
  refine fun x y s => ⟨⟨rfl, rfl, rfl⟩, ⟨_, rfl, fun k => ?_, setReg_frame s x _⟩,
    ⟨_, rfl, fun k => ?_, setReg_frame s x _⟩, _, rfl, fun k => ?_, setReg_frame s x _⟩
  · rw [State.reg_setReg_same, BitVec.getLsbD_or, Bool.or_eq_true]
  · rw [State.reg_setReg_same, BitVec.getLsbD_and, Bool.and_eq_true]
  · rw [State.reg_setReg_same, BitVec.getLsbD_xor, Bool.xor_iff_ne]

/-! ## Addition and subtraction: the flag is written last (R105, R106, R108) -/

/-- Settles O24. -/
theorem addSetsCarryLast : Obligations.AddSetsCarryLast := by
  refine fun x y s => ⟨rfl, _, rfl, fun hx => ?_, ?_, writeFlagLast_frame s x _ _⟩
  · rw [State.reg_writeFlagLast_dest s hx, toNat_sumLow]
  · rw [State.reg_writeFlagLast_flag, toNat_carryFlag]

/-- The low 8 bits of the signed difference, over the integers. -/
theorem toNat_diffLow_int (a b : Byte) : ((diffLow a b).toNat : Int) = ((a.toNat : Int) - b.toNat) % 256 := by
  rw [diffLow, exactDiff, BitVec.toNat_ofInt]
  omega

/-- The flag of the signed difference, over the integers: 1 means no borrow. -/
theorem toNat_noBorrowFlag_int (a b : Byte) :
    (noBorrowFlag a b).toNat = if ((a.toNat : Int) - b.toNat) ≥ 0 then 1 else 0 := by
  simp only [toNat_noBorrowFlag, ge_iff_le, Int.sub_nonneg, Int.ofNat_le]

/-- What SUB and SUBN share: a difference into `Vx`, then its no-borrow flag into `VF`. -/
theorem writeFlagLast_diff (s : State) (x : Nibble) (a b : Byte) :
    let t := s.writeFlagLast x (diffLow a b) (noBorrowFlag a b)
    (x ≠ flagReg → ((t.reg x).toNat : Int) = ((a.toNat : Int) - b.toNat) % 256) ∧
      (t.reg flagReg).toNat = (if ((a.toNat : Int) - b.toNat) ≥ 0 then 1 else 0) ∧
      RegsKeptBut [x, flagReg] s t ∧ OnlyChanges [.v] s t := by
  refine ⟨fun hx => ?_, ?_, writeFlagLast_frame s x _ _⟩
  · rw [State.reg_writeFlagLast_dest s hx, toNat_diffLow_int]
  · rw [State.reg_writeFlagLast_flag, toNat_noBorrowFlag_int]

/-- Settles O25. -/
theorem subSetsNoBorrowLast : Obligations.SubSetsNoBorrowLast := fun x y s =>
  ⟨rfl, _, rfl, writeFlagLast_diff s x (s.reg x) (s.reg y)⟩

/-- Settles O26: SUB's argument with the operands exchanged. -/
theorem subnSetsNoBorrowLast : Obligations.SubnSetsNoBorrowLast := fun x y s =>
  ⟨rfl, _, rfl, writeFlagLast_diff s x (s.reg y) (s.reg x)⟩

/-! ## Shifts: the flag is written first (R107, R109) -/

/-- Settles O27: with `x = 15` the flag, 0 or 1, is halved to 0. -/
theorem shrShiftsInPlace : Obligations.ShrShiftsInPlace := by
  refine fun x y s => ⟨rfl, _, rfl, fun hx => ⟨?_, ?_⟩, ?_, shiftFlagFirst_frame s x _ _⟩
  · rw [State.reg_shiftFlagFirst_dest s hx, toNat_shiftRight1]
  · rw [State.reg_shiftFlagFirst_flag s hx, toNat_bitOutRight]
  · rintro rfl
    rw [State.reg_shiftFlagFirst_flag_dest, toNat_shiftRight1, toNat_bitOutRight]
    omega

/-- Settles O28: with `x = 15` the flag, 0 or 1, is doubled to 0 or 2. -/
theorem shlShiftsInPlace : Obligations.ShlShiftsInPlace := by
  refine fun x y s => ⟨rfl, _, rfl, fun hx => ⟨?_, ?_⟩, ?_, shiftFlagFirst_frame s x _ _⟩
  · rw [State.reg_shiftFlagFirst_dest s hx, toNat_shiftLeft1]
  · rw [State.reg_shiftFlagFirst_flag s hx, toNat_bitOutLeft]
  · rintro rfl
    have hlt := (s.reg flagReg).isLt
    rw [State.reg_shiftFlagFirst_flag_dest, toNat_shiftLeft1, toNat_bitOutLeft]
    split <;> omega

end Sys2Proof.Machine

/-! # Part 43_memory_index: the index register, stores and loads (spec/43_memory_index.md R120 to R126) -/

namespace Sys2Proof.Machine

/-! ## Frames of the writes to `I`, to memory and to a range of registers -/

theorem onlyChanges_setI (s : State) (w : Word) : OnlyChanges [.i] s (s.setI w) := by
  intro p hp
  cases p <;> simp_all [Part.Same]

theorem onlyChanges_setMem (s : State) (m : Memory) : OnlyChanges [.mem] s (s.setMem m) := by
  intro p hp
  cases p <;> simp_all [Part.Same]

/-- A bulk load is a new register file (R126: `I` is kept). -/
theorem onlyChanges_loadRegs (s : State) (x : Nibble) : OnlyChanges [.v] s (s.loadRegs x) := by
  obtain ⟨v, hv⟩ := s.loadRegs_eq x
  rw [hv]
  intro p hp
  cases p with
  | v => exact absurd (List.mem_singleton_self _) hp
  | stack | mem => exact fun _ => rfl
  | rnd => exact ⟨rfl, rfl⟩
  | _ => rfl

/-! ## The range checks decided (R47, R48, R163) -/

section
variable (s : State) (k : Nat)

/-- A load from `I` to `I + k` inside memory takes no fault. -/
theorem State.loadFault_eq_none (h : s.i.toNat + k ≤ 4095) : s.loadFault (k + 1) = Option.none := by
  rw [State.loadFault_eq, if_neg (by omega)]

theorem State.loadFault_eq_memRange (h : 4095 < s.i.toNat + k) : s.loadFault (k + 1) = some .memRange := by
  rw [State.loadFault_eq, if_pos ⟨by omega, h⟩]

theorem State.storeFault_eq_memRange (h : 4095 < s.i.toNat + k) : s.storeFault (k + 1) = some .memRange := by
  rw [State.storeFault_eq, if_pos ⟨by omega, h⟩]

/-- No instruction stores enough bytes to reach from the font past the end of memory. -/
theorem State.storeFault_eq_writeProtect (h : s.i.toNat < 80) (hk : k ≤ 15) :
    s.storeFault (k + 1) = some .writeProtect := by
  rw [State.storeFault_eq, if_neg (by omega), if_pos h]

end

/-- A checked access whose check fails latches the fault and changes nothing else (R162). -/
theorem State.faultOr_fault_frame {s : State} {f : Option FaultCode} {c : FaultCode} (h : f = some c) (u : State) :
    ∃ t, s.faultOr f u = .next t ∧ t.fault = c ∧ OnlyChanges [.fault] s t := by
  subst h
  exact ⟨s.raise c, s.faultOr_some u c, s.raise_fault c, onlyChanges_raise s c⟩

/-! ## Stores and loads inside the range (R123, R125, R126) -/

/-- A store that fits into memory leaves every byte outside its range alone. -/
theorem bytesKeptBut_writeBytes (s : State) (bs : List Byte) (h : s.i.toNat + bs.length ≤ 4096) :
    BytesKeptBut s.i.toNat bs.length s (s.setMem (s.mem.writeBytes (s.dataAddr 0) bs)) := by
  intro a ha
  rw [State.setMem_mem, State.dataAddr_eq, Nat.add_zero, Memory.readByte_writeBytes bs _ _ _ h, if_neg (by omega)]

/-- LD B, Vx inside the writable cells completes (R123). -/
theorem exec_ldB_of_writable (x : Nibble) (s : State) (h0 : 80 ≤ s.i.toNat) (h1 : s.i.toNat ≤ 4093) :
    exec (.ldB x) s = .next (s.setMem (s.mem.writeBytes (s.dataAddr 0) (bcdDigits (s.reg x)))) := by
  show s.faultOr (s.storeFault 3) _ = _
  rw [s.storeFault_eq_none _ h0 (by omega), State.faultOr_none]

/-- After LD B, Vx that fits into memory, `MEM[I + k]` is digit `k` of `Vx`, hundreds first (R123). -/
theorem State.toNat_readByte_writeBytes_bcdDigits (s : State) (b : Byte) (k : Nat) (hk : k < 3)
    (h : s.i.toNat ≤ 4093) : ((s.mem.writeBytes (s.dataAddr 0) (bcdDigits b)).readByte (s.i.toNat + k)).toNat =
      [b.toNat / 100, b.toNat / 10 % 10, b.toNat % 10].getD k 0 := by
  have hlen := length_bcdDigits b
  rw [State.dataAddr_eq, Nat.add_zero, Memory.readByte_writeBytes _ _ _ _ (by omega), if_pos (by omega),
    Nat.add_sub_cancel_left, ← bcdDigits_toNat]
  exact (List.getD_map _ 0#8 BitVec.toNat).symm

/-- LD Vx, [I] inside memory completes (R126). -/
theorem exec_ldRegs_of_readable (x : Nibble) (s : State) (h : s.i.toNat + x.toNat ≤ 4095) :
    exec (.ldRegs x) s = .next (s.loadRegs x) := by
  show s.faultOr (s.loadFault (x.toNat + 1)) _ = _
  rw [s.loadFault_eq_none _ h, State.faultOr_none]

/-- Settles O29: each of the three is one write of `I`. -/
theorem indexInstructions : Obligations.IndexInstructions := by
  refine fun nnn x s => ⟨⟨rfl, rfl, rfl⟩, ⟨_, rfl, toNat_zextAddr nnn, onlyChanges_setI s _⟩,
    ⟨_, rfl, ?_, onlyChanges_setI s _⟩, _, rfl, toNat_glyphAddr (s.reg x), onlyChanges_setI s _⟩
  rw [State.setI_i, BitVec.toNat_add, toNat_zextByte]

/-- Settles O30, by where `I` lies: the three bytes fit, run past the end of memory, or begin in the font. -/
theorem bcdStoresDigitsOrFaults : Obligations.BcdStoresDigitsOrFaults := by
  refine fun x s => ⟨rfl, fun h0 h1 => ?_, fun h => ?_, fun h => ?_⟩
  · have hdigit := fun k hk => s.toNat_readByte_writeBytes_bcdDigits (s.reg x) k hk h1
    exact ⟨_, exec_ldB_of_writable x s h0 h1, hdigit 0 (by decide), hdigit 1 (by decide), hdigit 2 (by decide),
      bytesKeptBut_writeBytes s (bcdDigits (s.reg x)) (Nat.add_le_add_right h1 3), onlyChanges_setMem s _⟩
  · exact State.faultOr_fault_frame (s.storeFault_eq_memRange 2 (by omega)) _
  · exact State.faultOr_fault_frame (s.storeFault_eq_writeProtect 2 h (by decide)) _

/-- Settles O31, by where the range from `I` lies. -/
theorem bulkStoreOrFaults : Obligations.BulkStoreOrFaults := by
  refine fun x s => ⟨rfl, fun h0 h1 => ?_, fun h => ?_, fun h => ?_⟩
  · have hlen := s.length_regsTo x
    refine ⟨_, exec_stRegs_of_writable x s h0 h1, fun k hk => ?_, ?_, onlyChanges_setMem s _⟩
    · rw [State.setMem_mem, s.readByte_writeBytes_regsTo x k.toNat hk h1, BitVec.ofNat_toNat, BitVec.setWidth_eq]
    · rw [← hlen]
      exact bytesKeptBut_writeBytes s (s.regsTo x) (by omega)
  · exact State.faultOr_fault_frame (s.storeFault_eq_memRange x.toNat h) _
  · exact State.faultOr_fault_frame (s.storeFault_eq_writeProtect x.toNat h (Nat.le_of_lt_succ x.isLt)) _

/-- Settles O32, by whether the range from `I` lies in memory. -/
theorem bulkLoadOrFaults : Obligations.BulkLoadOrFaults := by
  refine fun x s => ⟨rfl, fun h => ?_, fun h => ?_⟩
  · refine ⟨_, exec_ldRegs_of_readable x s h, fun k hk => ?_, fun k hk => ?_, onlyChanges_loadRegs s x⟩
    · rw [State.reg_loadRegs, if_pos hk, State.dataByte, State.dataAddr_eq]
    · rw [State.reg_loadRegs, if_neg hk.not_ge]
  · exact State.faultOr_fault_frame (s.loadFault_eq_memRange x.toNat h) _

end Sys2Proof.Machine

/-! # Part 44_display: CLS and DRW (spec/44_display.md R130 to R132) -/

namespace Sys2Proof.Machine

theorem onlyChanges_setDisp (s : State) (d : BitVec 2048) : OnlyChanges [.disp] s (s.setDisp d) := by
  intro p hp
  cases p <;> simp_all [Part.Same]

/-- Settles O34. -/
theorem clsClearsEveryPixel : Obligations.ClsClearsEveryPixel := fun s =>
  ⟨rfl, _, rfl, fun r c _ _ => pixelOf_zero r c, onlyChanges_setDisp s _⟩

/-! ## Which pixels a sprite's 1 bits cover (R131) -/

/-- Speaking of the pixels a sprite covers is speaking of its 1 bits and of where they land (R132 (b)). -/
theorem exists_spriteBit_iff (m : Memory) (a x0 y0 n : Nat) (hn : n ≤ 32) (P : Nat → Nat → Prop) :
    (∃ r c, r < 32 ∧ c < 64 ∧ spriteBit m a x0 y0 n r c = true ∧ P r c) ↔
      ∃ r c, r < n ∧ c < 8 ∧ (m.readByte (a + r)).getLsbD (7 - c) = true ∧ P ((y0 + r) % 32) ((x0 + c) % 64) := by
  constructor
  · rintro ⟨r, c, hr, hc, hb, hP⟩
    obtain ⟨dr, dc, hdr, hdc, rfl, rfl⟩ :
        ∃ dr dc, dr < n ∧ dc < 8 ∧ r = (y0 + dr) % 32 ∧ c = (x0 + dc) % 64 := by
      by_contra hno
      have hout := spriteBit_outside m a x0 y0 n r c hr hc fun dr dc hdr hdc he => hno ⟨dr, dc, hdr, hdc, he⟩
      exact Bool.false_ne_true (hout.symm.trans hb)
    rw [spriteBit_at m a x0 y0 n dr dc hdr hn hdc] at hb
    exact ⟨dr, dc, hdr, hdc, hb, hP⟩
  · rintro ⟨dr, dc, hdr, hdc, hb, hP⟩
    refine ⟨_, _, Nat.mod_lt _ (by decide), Nat.mod_lt _ (by decide), ?_, hP⟩
    rwa [spriteBit_at m a x0 y0 n dr dc hdr hn hdc]

section
variable (s : State) (x y n : Nibble)

/-- A pixel under sprite bit (`r`, `c`) is XORed with it (R131). -/
theorem State.pixelOf_drawn_at {r c : Nat} (hr : r < n.toNat) (hc : c < 8) :
    pixelOf (s.drawn x y n).1 (((s.reg y).toNat + r) % 32) (((s.reg x).toNat + c) % 64) =
      (s.pixel (((s.reg y).toNat + r) % 32) (((s.reg x).toNat + c) % 64) ^^ s.spriteBitAt r c) := by
  have hn : n.toNat ≤ 32 := by omega
  rw [State.drawn, (drawSprite_spec _ _ _ _ _ _ hn).1 _ _ (Nat.mod_lt _ (by decide)) (Nat.mod_lt _ (by decide)),
    spriteBit_at _ _ _ _ _ _ _ hr hn hc]
  rfl

/-- A pixel outside the footprint is kept (R132 (c)). -/
theorem State.pixelOf_drawn_outside {r c : Nat} (hr : r < 32) (hc : c < 64)
    (h : ∀ dr dc, dr < n.toNat → dc < 8 → ¬(r = ((s.reg y).toNat + dr) % 32 ∧ c = ((s.reg x).toNat + dc) % 64)) :
    pixelOf (s.drawn x y n).1 r c = s.pixel r c := by
  rw [State.drawn, (drawSprite_spec _ _ _ _ _ _ (by omega)).1 r c hr hc, spriteBit_outside _ _ _ _ _ r c hr hc h,
    Bool.xor_false]
  rfl

/-- A 1 bit of the sprite falls on a pixel that is `lit` in `s`. -/
def State.SpriteMeets (lit : Bool) : Prop :=
  ∃ r c, r < n.toNat ∧ c < 8 ∧ s.spriteBitAt r c = true ∧
    s.pixel (((s.reg y).toNat + r) % 32) (((s.reg x).toNat + c) % 64) = lit

/-- The collision result tells whether a 1 bit meets a lit pixel (R131). -/
theorem State.drawn_collides_iff : (s.drawn x y n).2 = true ↔ s.SpriteMeets x y n true := by
  rw [State.drawn, (drawSprite_spec _ _ _ _ _ _ (by omega)).2]
  exact exists_spriteBit_iff _ _ _ _ _ (by omega) (fun r c => s.pixel r c = true)

/-! ## DRW by where the sprite's bytes lie (R131) -/

variable {s n}

/-- DRW completes when it reads no byte, or none above 4095. -/
theorem exec_drw_of_readable (h : n.toNat = 0 ∨ s.i.toNat + n.toNat ≤ 4096) : exec (.drw x y n) s =
    .next ((s.setDisp (s.drawn x y n).1).setReg flagReg (flagByte (s.drawn x y n).2)) := by
  show s.faultOr (s.loadFault n.toNat) _ = _
  rw [State.loadFault_eq, if_neg (by omega), State.faultOr_none]

end

/-- Settles O35, by whether the sprite's bytes lie in memory. -/
theorem drwXorsSpriteOrFaults : Obligations.DrwXorsSpriteOrFaults := by
  refine fun x y n s => ⟨rfl, fun h => ?_, fun h1 h => ?_⟩
  · have hcoll := s.drawn_collides_iff x y n
    refine ⟨_, exec_drw_of_readable x y h, fun r c hr hc => s.pixelOf_drawn_at x y n hr hc,
      fun r c hr hc hout => s.pixelOf_drawn_outside x y n hr hc hout, fun hmeet => ?_, fun hmiss => ?_,
      (setReg_frame _ flagReg _).1, ((onlyChanges_setDisp s _).trans (onlyChanges_setReg _ flagReg _)).mono (by simp)⟩
    · rw [State.reg_setReg_same, toNat_flagByte, if_pos (hcoll.2 hmeet)]
    · rw [State.reg_setReg_same, toNat_flagByte, if_neg (mt hcoll.1 hmiss)]
  · refine State.faultOr_fault_frame ?_ _
    rw [State.loadFault_eq, if_pos ⟨h1, by omega⟩]

/-! ## Drawing the same sprite again (R132 (a)) -/

section
variable {s s' : State} {x y n : Nibble} (hdisp : s'.disp = (s.drawn x y n).1) (hi : s'.i = s.i)
  (hmem : s'.mem = s.mem) (hx : s'.reg x = s.reg x) (hy : s'.reg y = s.reg y)
include hdisp hi hmem hx hy

/-- XOR with the same sprite bit twice is no change. -/
theorem State.drawn_drawn : (s'.drawn x y n).1 = s.disp := by
  have hn : n.toNat ≤ 32 := by omega
  refine disp_ext _ _ fun r c hr hc => ?_
  rw [State.drawn, (drawSprite_spec _ _ _ _ _ _ hn).1 r c hr hc, hdisp, State.drawn,
    (drawSprite_spec _ _ _ _ _ _ hn).1 r c hr hc, State.dataAddr_eq, State.dataAddr_eq, hi, hmem, hx, hy,
    Bool.xor_assoc, Bool.xor_self, Bool.xor_false]

/-- The pixel under a 1 bit is lit before the second draw exactly when it was dark before the first. -/
theorem State.spriteMeets_lit_iff : s'.SpriteMeets x y n true ↔ s.SpriteMeets x y n false := by
  have hbit : ∀ r c, s'.spriteBitAt r c = s.spriteBitAt r c := fun r c => by
    rw [State.spriteBitAt, State.spriteBitAt, hi, hmem]
  refine exists_congr fun r => exists_congr fun c => and_congr_right fun hr => and_congr_right fun hc => ?_
  rw [hbit, hx, hy]
  refine and_congr_right fun hone => ?_
  rw [State.pixel, hdisp, s.pixelOf_drawn_at x y n hr hc, hone, Bool.xor_true, Bool.not_eq_true']

end

theorem toNat_flagByte_eq_one_iff (c : Bool) : (flagByte c).toNat = 1 ↔ c = true := by cases c <;> decide

/-- Settles O36: the second draw XORs every pixel with the same bit, and meets a lit pixel where the first met a dark
one. -/
theorem secondDrawRestores : Obligations.SecondDrawRestores := by
  intro x y n s t s' h ht hdisp hi hmem hx hy
  obtain rfl := Host.Outcome.next.inj ((exec_drw_of_readable x y h).symm.trans ht)
  refine ⟨_, exec_drw_of_readable x y (hi ▸ h), State.drawn_drawn hdisp hi hmem hx hy, ?_⟩
  rw [State.reg_setReg_same, toNat_flagByte_eq_one_iff, State.drawn_collides_iff]
  exact State.spriteMeets_lit_iff hdisp hi hmem hx hy

end Sys2Proof.Machine

/-! # Part 45_timers_random: the timer instructions and RND (spec/45_timers_random.md R140 to R143) -/

namespace Sys2Proof.Machine

/-! ## No instruction but RND sees the random input (R143; log entry 3) -/

/-- Both fields of the random input replaced: the byte it holds and the count of bytes consumed. -/
def State.withRnd (s : State) (b : Option Byte) (n : Nat) : State := { s with rndIn := b, draws := n }

theorem State.setRndIn_eq_withRnd (s : State) (b : Option Byte) : s.setRndIn b = s.withRnd b s.draws := rfl

section
variable (s : State) (b : Option Byte) (n : Nat)

theorem State.skipIf_withRnd (c : Bool) : (s.withRnd b n).skipIf c = (s.skipIf c).withRnd b n := by
  cases c <;> rfl

/-- A checked access does not look at the random input. -/
theorem State.faultOr_withRnd {f : Option FaultCode} {t u : State} (hu : u = t.withRnd b n) :
    (s.withRnd b n).faultOr f u = mapNext (fun t => t.withRnd b n) (s.faultOr f t) := by
  subst hu
  cases f <;> rfl

/-- A bulk load writes registers only, from memory only (R126). -/
theorem State.loadRegs_withRnd (x : Nibble) : (s.withRnd b n).loadRegs x = (s.loadRegs x).withRnd b n :=
  List.foldl_hom (fun t : State => t.withRnd b n) fun _ _ => rfl

/-- Where CALL goes is decided by `SP` (R91). -/
theorem execCall_withRnd (nnn : Addr12) :
    execCall nnn (s.withRnd b n) = mapNext (fun t => t.withRnd b n) (execCall nnn s) := by
  unfold execCall
  rw [apply_ite (mapNext _), apply_dite (mapNext _)]
  rfl

/-- Where RET goes is decided by `SP` (R92). -/
theorem execRet_withRnd : execRet (s.withRnd b n) = mapNext (fun t => t.withRnd b n) (execRet s) := by
  unfold execRet
  rw [apply_ite (mapNext _), apply_dite (mapNext _)]
  rfl

/-- Any instruction but RND does the same whatever the random input and the count are, and carries both through. -/
theorem exec_withRnd {i : Instr} (hi : ∀ x nn, i ≠ .rnd x nn) :
    exec i (s.withRnd b n) = mapNext (fun t => t.withRnd b n) (exec i s) := by
  cases i with
  | rnd x nn => exact absurd rfl (hi x nn)
  | call nnn => exact execCall_withRnd s b n nnn
  | ret => exact execRet_withRnd s b n
  | seImm | sneImm | seReg | sneReg | skp | sknp => exact congrArg Host.Outcome.next (s.skipIf_withRnd b n _)
  | drw | ldB | stRegs => exact s.faultOr_withRnd b n rfl
  | ldRegs x => exact s.faultOr_withRnd b n (s.loadRegs_withRnd b n x)
  | _ => rfl

end

/-- Any instruction but RND leaves the input and the count alone: it carries through the ones of `s` itself. -/
theorem exec_keeps_rnd {i : Instr} {s t : State} (hi : ∀ x nn, i ≠ .rnd x nn) (h : exec i s = .next t) :
    t.rndIn = s.rndIn ∧ t.draws = s.draws := by
  have hsame : exec i s = mapNext (fun t => t.withRnd s.rndIn s.draws) (exec i s) := exec_withRnd s _ _ hi
  rw [h] at hsame
  have ht : t = t.withRnd s.rndIn s.draws := Host.Outcome.next.inj hsame
  rw [ht]
  exact ⟨rfl, rfl⟩

/-- Settles O39: replacing the input is replacing both, the count by itself, and the outcome holds that count too. -/
theorem onlyRndSeesTheRandomInput : Obligations.OnlyRndSeesTheRandomInput := by
  refine fun i s b hi => ⟨?_, fun t ht => exec_keeps_rnd hi ht⟩
  rw [State.setRndIn_eq_withRnd, exec_withRnd s b s.draws hi]
  cases ht : exec i s with
  | next t =>
    obtain ⟨-, hdraws⟩ := exec_keeps_rnd hi ht
    simp only [mapNext, State.setRndIn_eq_withRnd, hdraws]
  | fault r => rfl
  | refused r => rfl

/-! ## Timers (R140, R141, R142) -/

/-- Settles O37: each of the three is one write. -/
theorem timerInstructions : Obligations.TimerInstructions := fun x s =>
  ⟨⟨rfl, rfl, rfl⟩, ⟨_, rfl, State.reg_setReg_same s x s.dt, setReg_frame s x s.dt⟩,
    ⟨_, rfl, rfl, onlyChanges_setDt s _⟩, _, rfl, rfl, onlyChanges_setSt s _⟩

/-! ## RND (R143) -/

theorem onlyChanges_consumeRnd (s : State) : OnlyChanges [.rnd] s s.consumeRnd := by
  intro p hp
  cases p <;> simp_all [Part.Same]

/-- RND writes `Vx` and the random input, and nothing else. -/
theorem consumeRnd_setReg_frame (s : State) (x : Nibble) (b : Byte) :
    RegsKeptBut [x] s (s.consumeRnd.setReg x b) ∧ OnlyChanges [.v, .rnd] s (s.consumeRnd.setReg x b) := by
  obtain ⟨hregs, hframe⟩ := setReg_frame s.consumeRnd x b
  exact ⟨hregs, ((onlyChanges_consumeRnd s).trans hframe).mono (by simp)⟩

theorem State.rndByte_of_some {s : State} {b : Byte} (h : s.rndIn = some b) : s.rndByte = b := by
  rw [State.rndByte, h, Option.getD_some]

theorem State.rndByte_of_none {s : State} (h : s.rndIn = none) : s.rndByte = Config.rnd s.draws := by
  rw [State.rndByte, h, Option.getD_none]

/-- The step event that executes, by the word at `PC` (R80, R83, R180). -/
theorem stepEvent_of_decodeWord {s : State} {w : Word} {i : Instr} (b : Byte) (hr : s.Runs) (hw : s.WordAtPc w)
    (hd : decodeWord w = some i) :
    stepEvent b s = mapNext (fun t => t.setRndIn none) (exec i (s.advance.setRndIn (some b))) :=
  congrArg (mapNext _) (step_of_decodeWord (s := s.setRndIn (some b)) hr hw hd)

/-- Settles O38: the masked byte by what the input holds; and in the event RND runs in the advanced state with the
event's byte on the input. -/
theorem rndMasksTheRandomByte : Obligations.RndMasksTheRandomByte := by
  refine ⟨fun x nn s => ⟨rfl, _, rfl, fun b hb => ?_, fun hb => ?_, fun k hk => ?_, rfl, rfl,
    consumeRnd_setReg_frame s x _⟩, fun _ s b w i hr hw hd => stepEvent_of_decodeWord b hr hw hd,
    fun _ s b w x nn hr hw hd => ?_⟩
  · rw [State.reg_setReg_same, State.rndByte_of_some hb]
  · rw [State.reg_setReg_same, State.rndByte_of_none hb]
  · rw [State.reg_setReg_same, BitVec.getLsbD_and, hk, Bool.and_false]
  · obtain ⟨hregs, hframe⟩ := consumeRnd_setReg_frame (s.advance.setRndIn (some b)) x (b &&& nn)
    have hbefore := (onlyChanges_advance s).trans (onlyChanges_setRndIn s.advance (some b))
    have hall := (hbefore.trans hframe).trans (onlyChanges_setRndIn _ none)
    refine ⟨_, stepEvent_of_decodeWord b hr hw hd, State.reg_setReg_same _ x (b &&& nn), ?_, hregs,
      hall.mono (by simp)⟩
    obtain ⟨-, -, -, hle⟩ := hr
    exact s.toNat_advance_pc hle

end Sys2Proof.Machine

/-! # Part 46_input: key skips and the key wait (spec/46_input.md R150 to R152) -/

namespace Sys2Proof.Machine

/-! ## Key skips (R150, R151) -/

/-- Settles O19: SKP is a skip on the key bit that the low nibble selects, SKNP on its negation. -/
theorem keySkips : Obligations.KeySkips := by
  refine fun x s => ⟨⟨rfl, rfl⟩, exec_skip_of_condition ?_, exec_skip_of_not_condition ?_⟩
  · rw [skipCondition, Bool.decide_eq_true]
  · rw [skipCondition, decide_not, Bool.decide_eq_true]

/-! ## The key wait (R152) -/

/-- `key_resolve` where the core does not wait (R152: a stray key event). -/
theorem keyResolveEvent_of_not_wait (k : Nibble) (s : State) (h : s.wait = false) : keyResolveEvent k s = s :=
  if_neg (ne_true_of_eq_false h)

theorem wait_keyResolveEvent (k : Nibble) (s : State) : (keyResolveEvent k s).wait = false := by
  cases h : s.wait with
  | false => rw [keyResolveEvent_of_not_wait k s h, h]
  | true => rw [keyResolveEvent_of_wait k s h, State.resume_wait]

/-- Settles O40: the first half is one suspension, the second the event in the state that waits or does not. -/
theorem keyWaitBothHalves : Obligations.KeyWaitBothHalves := fun _ x k s =>
  ⟨rfl, ⟨_, rfl, State.suspend_waitx s x, State.suspend_wait s x, onlyChanges_suspend s x⟩,
    fun h => ⟨_, rfl, toNat_reg_keyResolveEvent k s h, wait_keyResolveEvent k s, keyResolveEvent_frame k s⟩,
    fun h => congrArg Host.Outcome.next (keyResolveEvent_of_not_wait k s h)⟩

end Sys2Proof.Machine

/-! # Part 60_exceptions: timers, key flags, the fault table and the outputs (spec/60_exceptions.md R161 to R181) -/

namespace Sys2Proof.Machine

/-! ## The `unknown` pulse (R175) -/

/-- Of the five events only a step pulses `unknown`, and only where it executes UNKNOWN. -/
theorem unknownPulse_iff (e : Event) (s : State) :
    unknownPulse e s = true ↔ (∃ b, e = .step b) ∧ s.stepsUnknown = true := by
  cases e with
  | step b => exact ⟨fun h => ⟨⟨b, rfl⟩, h⟩, fun ⟨_, h⟩ => h⟩
  | reset | tick | keySet | keyResolve => exact ⟨nofun, fun ⟨⟨_, he⟩, _⟩ => nomatch he⟩

/-- Settles O11. -/
theorem unknownPulseExactly : Obligations.UnknownPulseExactly := by
  intro e s w hw
  rw [unknownPulse_iff, State.stepsUnknown_iff hw]

/-! ## Ticks (R170, R171, R179) -/

theorem toNat_countDown (b : Byte) : (countDown b).toNat = b.toNat - 1 := by
  unfold countDown
  split
  · bv_omega
  · omega

/-- `frame` is pulsed by ticks alone (R179). -/
theorem framePulse_iff (e : Event) : framePulse e = true ↔ e = .tick := by
  cases e with
  | tick => exact ⟨fun _ => rfl, fun _ => rfl⟩
  | reset | step | keySet | keyResolve => exact ⟨nofun, nofun⟩

/-- Settles O42. -/
theorem tickCountsBothTimersDown : Obligations.TickCountsBothTimersDown := fun _ s =>
  ⟨⟨_, rfl, toNat_countDown s.dt, toNat_countDown s.st, onlyChanges_tickEvent s⟩, framePulse_iff⟩

/-- Settles O43, by induction on the number of ticks: the first counts down by one, the rest start from there. -/
theorem ticksNeverPassZero : Obligations.TicksNeverPassZero := by
  intro font k
  induction k with
  | zero => exact fun s => ⟨s, rfl, rfl, rfl, OnlyChanges.refl _ s⟩
  | succ k ih =>
    intro s
    obtain ⟨t, hrun, hdt, hst, hframe⟩ := ih (tickEvent s)
    have hdt1 : (tickEvent s).dt.toNat = s.dt.toNat - 1 := toNat_countDown s.dt
    have hst1 : (tickEvent s).st.toNat = s.st.toNat - 1 := toNat_countDown s.st
    exact ⟨t, hrun, by omega, by omega, ((onlyChanges_tickEvent s).trans hframe).mono (by decide)⟩

/-! ## Key flags (R181) -/

/-- Settles O44: the event is one write of `KEYS`. -/
theorem keySetReplacesAllFlags : Obligations.KeySetReplacesAllFlags := fun _ k16 s =>
  ⟨_, rfl, fun _ => rfl, onlyChanges_setKeys s k16⟩

/-! ## The fault table (R161) -/

/-- Settles O54. -/
theorem faultTableExactly : Obligations.FaultTableExactly := fun _ _ _ hf h => exec_fault_eq_executionFault h hf

/-! ## Level outputs (R177, R178) -/

theorem State.soundOut_iff (s : State) : s.soundOut = true ↔ s.st.toNat ≠ 0 := by
  rw [State.soundOut, decide_eq_true_iff, ne_eq, ← BitVec.toNat_inj, BitVec.toNat_ofNat, Nat.zero_mod]

/-- Settles O49, the codes by the six names of `FAULT`. -/
theorem levelOutputs : Obligations.LevelOutputs := by
  refine fun s => ⟨s.soundOut_iff, Iff.rfl, ?_⟩
  rw [State.faultOut]
  cases s.fault <;> rfl

end Sys2Proof.Machine

/-! # Part 70_reset_and_hazards, and the model's own choices: `reset` (spec/70_reset_and_hazards.md R190, R191), the form
of memory (log entry 1), `SP` above 16 (log entry 5) -/

namespace Sys2Proof.Machine

/-! ## Reset (R190, R191) -/

section
variable (font : Font) {prog : List Byte}

theorem Memory.readByte_afterReset_prog (h : prog.length ≤ 3584) {j : Nat} (hj : j < prog.length) :
    (Memory.afterReset font prog).readByte (512 + j) = prog.getD j 0#8 := by
  rw [Memory.readByte_afterReset font prog h, if_pos ⟨by omega, by omega⟩, Nat.add_sub_cancel_left]

/-- Above the font, and outside the program, memory is 0 (R190). -/
theorem Memory.readByte_afterReset_elsewhere (h : prog.length ≤ 3584) {a : Nat} (ha : 80 ≤ a)
    (hout : a < 512 ∨ 512 + prog.length ≤ a) : (Memory.afterReset font prog).readByte a = 0#8 := by
  have hlen : font.toList.length ≤ a := Vector.length_toList.trans_le ha
  rw [Memory.readByte_afterReset font prog h, if_neg (by omega), List.getD_eq_default _ _ hlen]

/-- A reset event with a program longer than the space for it is refused (R191; log entry 6). -/
theorem resetEvent_of_gt (s : State) (h : 3584 < prog.length) :
    resetEvent font prog s = .refused .oversizedProgram :=
  if_neg fun hwf => h.not_ge (of_decide_eq_true hwf)

end

/-- Settles O45: memory by where the address lies, everything else as in `State.reset`. -/
theorem resetEventSetsEverything : Obligations.ResetEventSetsEverything := fun font prog s h =>
  ⟨_, resetEvent_of_le font prog s h, Memory.readByte_afterReset_font font prog h,
    fun _ hj => Memory.readByte_afterReset_prog font h hj,
    fun _ ha hout => Memory.readByte_afterReset_elsewhere font h ha hout, State.reset_reg, rfl, rfl, rfl,
    fun k => Vector.getElem_replicate k.isLt, rfl, rfl, fun r c _ _ => pixelOf_zero r c, fun _ => BitVec.getLsbD_zero,
    rfl, rfl, rfl⟩

/-- Settles O46: a program that is not longer is answered with a next state. -/
theorem oversizedResetRefused : Obligations.OversizedResetRefused := by
  refine fun font prog s => ⟨fun hrefused => ?_, resetEvent_of_gt font s⟩
  by_contra hle
  have hnext := resetEvent_of_le font prog s (not_lt.1 hle)
  cases hnext.symm.trans hrefused

/-! ## The form of memory (log entry 1) -/

/-- Settles O56, by the ways a step can go; the latches and the advance leave memory alone. -/
theorem memoryStaysCanonical : Obligations.MemoryStaysCanonical := by
  intro s t h hs
  obtain ⟨-, rfl⟩ | ⟨-, -, rfl⟩ | ⟨-, he⟩ := step_cases s t hs
  · exact h
  · exact h
  · exact he.mem_wf h

/-! ## `SP` above 16 (log entry 5) -/

section
variable {s : State} (h : 16 < s.sp.toNat)
include h

theorem exec_call_of_illegal (nnn : Addr12) : exec (.call nnn) s = .fault .stackPointerIllegal := by
  have hfull : s.sp ≠ 16#8 := by bv_omega
  have hslot : ¬s.sp.toNat < 16 := by omega
  exact (if_neg hfull).trans (dif_neg hslot)

theorem exec_ret_of_illegal : exec .ret s = .fault .stackPointerIllegal := by
  have hempty : s.sp ≠ 0#8 := by bv_omega
  have hslot : ¬(s.sp - 1#8).toNat < 16 := by bv_omega
  exact (if_neg hempty).trans (dif_neg hslot)

end

/-- Settles O16: `SP` is at neither bound, and no slot exists for the push or the pop. -/
theorem illegalStackPointerStops : Obligations.IllegalStackPointerStops := fun nnn _ h =>
  ⟨exec_call_of_illegal h nnn, exec_ret_of_illegal h⟩

end Sys2Proof.Machine
